-- ==== Sys2Proof/Word.lean ====
section
/-! DEFINITION. The bit-vector types of the block: command words, bytes, channel values and switch
positions. Every value is unsigned (00_scope.md R11); the widths are those of 00_scope.md R8. -/

namespace Sys2Proof

/-- A command word `CW`, `W_CMD` = 32 bits (R8, R90). -/
abbrev Word := BitVec 32

/-- One byte of a frame or of a received buffer (R50). -/
abbrev Byte := BitVec 8

/-- The value of one channel register, `W_REG` = 11 bits (R8, R21). A wider value cannot be presented
to the block (R174, 93_implementation_defined.md U1), so no type here holds one. -/
abbrev Chan := BitVec 11

/-- The value of one Switch State slot, `W_SW` = 2 bits (R8, R25). -/
abbrev Pos := BitVec 2

end Sys2Proof
end

