-- ==== Sys2Proof/Config.lean ====
section
/-! DEFINITION. What the spec leaves to the implementation: the two open parameters of 00_scope.md R9,
which a model "takes as an argument or quantifies over", and the free choice of interleaving. -/

namespace Sys2Proof

/-- `P_RESET_ORDER`: where the reset-key action stands among the actions of one `POLL` tick (R150). -/
inductive ResetOrder where
  | last
  | first
deriving DecidableEq, Repr

/-- The open parameters of R9. State carries them so that a statement over all states quantifies over
both settings of each; no step writes them (log 1). -/
structure Params where
  /-- `P_ATOMIC_OPS`: every op is one atomic transition (R66). -/
  atomicOps : Bool
  /-- `P_RESET_ORDER` (R150). -/
  resetOrder : ResetOrder
deriving DecidableEq, Repr

/-- R9's default column: `P_ATOMIC_OPS = false`, `P_RESET_ORDER = last`. -/
def Params.default : Params := { atomicOps := false, resetOrder := .last }

/-- FREE VALUE. The agents are not ordered among themselves (R61, R62, R238(c)), so where the state
lays down no further order the next port and the next of its slot events are chosen by this
uninterpreted function of a counter: nothing can be proved about its values (log 3). -/
opaque Config.freeChoice : Nat → Nat

end Sys2Proof
end

