-- ==== Sys2Proof/Syntax.lean ====
section
/-! DEFINITION. The ops of the block, its ports, the key inputs by name, and the pseudo-ops of the
assembler syntax (00_scope.md R2, 60_exceptions.md R241, 41_input_mapper.md R141, 30_encoding.md R100,
R101). -/

namespace Sys2Proof

/-- The four ports, one per agent (R241). -/
inductive Port where
  | map
  | tx
  | rx
  | host
deriving DecidableEq, Repr

/-- The seven ops (R2), one constructor per row of opcode_table.json. Every operand is an unsigned
field taken as it is (R98), so each field has exactly the values the encoding can present. -/
inductive Instr where
  /-- `NOP` (R120). -/
  | nop
  /-- `GET idx` (R121); `idx` is a channel index 0 to 15. -/
  | get (idx : Fin 16)
  /-- `SET idx, val` (R122). -/
  | set (idx : Fin 16) (val : Chan)
  /-- `RSTN` (R123). -/
  | rstn
  /-- `POLL keys` (R140); bit `i` of `keys` is the sampled level of key input `i`. -/
  | poll (keys : BitVec 22)
  /-- `ENC` (R170). -/
  | enc
  /-- `DEC len` (R190); the bytes `BUF` are presented beside the command word (R95). -/
  | dec (len : BitVec 8)
deriving DecidableEq, Repr

/-- The 22 key inputs under the names of R141; the digit is the channel number. -/
inductive Key where
  | inc1 | dec1 | inc2 | dec2 | inc3 | dec3 | inc4 | dec4
  | hi6 | lo6
  | tog5 | tog7 | tog8 | tog9 | tog10 | tog11 | tog12 | tog13 | tog14 | tog15 | tog16
  | rst
deriving DecidableEq, Repr

/-- The pseudo-ops of R101. A channel number is one more than the channel index. -/
inductive Pseudo where
  | setCh (number : Nat) (val : Chan)
  | getCh (number : Nat)
  | snapshot
  | tick (n : Nat) (keys : BitVec 22)
  | press (keys : BitVec 22)
  | release
deriving DecidableEq, Repr

end Sys2Proof
end

