-- ==== Sys2Proof/WellFormed.lean ====
section
/-! DEFINITION. Which op a port accepts (60_exceptions.md R241). The operands need no check: no operand
can encode a value its rule does not define (30_encoding.md R98). -/

namespace Sys2Proof

/-- The "ops accepted" column of R241: `NOP` on every port, every other op on the port of its unit. -/
def Instr.acceptedOn (i : Instr) (p : Port) : Bool :=
  match i with
  | .nop => true
  | .get _ => p == .host
  | .set _ _ => p == .host
  | .rstn => p == .host
  | .poll _ => p == .map
  | .enc => p == .tx
  | .dec _ => p == .rx

/-- A command as an agent issues it: an op on a port. -/
structure Command where
  port : Port
  op : Instr
deriving DecidableEq, Repr

/-- A well-formed command: the port owns the op. The block answers any other with `ILLEGAL` (R97). -/
abbrev Command.wf (c : Command) : Prop := c.op.acceptedOn c.port = true

end Sys2Proof
end

