-- ==== Sys2Proof/Decode.lean ====
section
/-! DEFINITION. The command word: its opcode map, the decoder, the encoder, and the decoder on a row of
opcode_table.json (30_encoding.md R90 to R98, R102). -/

namespace Sys2Proof

/-- Why a word is illegal (R97). The block answers both the same way, with the status `ILLEGAL`. -/
inductive DecodeError where
  /-- `op` in `0x7` to `0xF`. -/
  | reservedOp (op : BitVec 4)
  /-- A legal `op` with a bit of its format's "zero" field set. -/
  | zeroField (op : BitVec 4)
deriving DecidableEq, Repr

/-- `CW[31:28]` (R90). -/
def opField (w : Word) : BitVec 4 := w.extractLsb' 28 4

/-- Accepts the op when the format's "zero" field is 0 (R91 to R95, R97). -/
def ifZero {n : Nat} (op : BitVec 4) (zero : BitVec n) (i : Instr) : Except DecodeError Instr :=
  if zero = 0#n then .ok i else .error (.zeroField op)

/-- Decodes a command word (R96, R97). Total: every word is one op or is rejected by name. -/
def decode (w : Word) : Except DecodeError Instr :=
  let op := opField w
  match op.toNat with
  | 0 => ifZero op (w.extractLsb' 0 28) .nop
  | 1 => ifZero op (w.extractLsb' 4 24) (.get (w.extractLsb' 0 4).toFin)
  | 2 => ifZero op (w.extractLsb' 15 13) (.set (w.extractLsb' 11 4).toFin (w.extractLsb' 0 11))
  | 3 => ifZero op (w.extractLsb' 0 28) .rstn
  | 4 => ifZero op (w.extractLsb' 22 6) (.poll (w.extractLsb' 0 22))
  | 5 => ifZero op (w.extractLsb' 0 28) .enc
  | 6 => ifZero op (w.extractLsb' 8 20) (.dec (w.extractLsb' 0 8))
  | _ => .error (.reservedOp op)

/-- The command word of an op, field by field from the formats Z, I, IV, K, L (R91 to R96). -/
def encode (i : Instr) : Word :=
  match i with
  | .nop => 0x0#4 ++ 0#28
  | .get idx => 0x1#4 ++ 0#24 ++ BitVec.ofFin (w := 4) idx
  | .set idx val => 0x2#4 ++ 0#13 ++ BitVec.ofFin (w := 4) idx ++ val
  | .rstn => 0x3#4 ++ 0#28
  | .poll keys => 0x4#4 ++ 0#6 ++ keys
  | .enc => 0x5#4 ++ 0#28
  | .dec len => 0x6#4 ++ 0#20 ++ len

/-- One row of the opcode map (R96): a word `w` is that op when `w &&& mask = pattern`. -/
structure OpcodeRow where
  mnemonic : String
  pattern : Word
  mask : Word
deriving DecidableEq, Repr

/-- `w` matches the row (R96). -/
def OpcodeRow.matches (r : OpcodeRow) (w : Word) : Bool := w &&& r.mask == r.pattern

/-- The seven rows of R96. -/
def opcodeRows : List OpcodeRow :=
  [ { mnemonic := "NOP", pattern := 0x00000000#32, mask := 0xFFFFFFFF#32 },
    { mnemonic := "GET", pattern := 0x10000000#32, mask := 0xFFFFFFF0#32 },
    { mnemonic := "SET", pattern := 0x20000000#32, mask := 0xFFFF8000#32 },
    { mnemonic := "RSTN", pattern := 0x30000000#32, mask := 0xFFFFFFFF#32 },
    { mnemonic := "POLL", pattern := 0x40000000#32, mask := 0xFFC00000#32 },
    { mnemonic := "ENC", pattern := 0x50000000#32, mask := 0xFFFFFFFF#32 },
    { mnemonic := "DEC", pattern := 0x60000000#32, mask := 0xFFFFFF00#32 } ]

/-- The mnemonic of an op (R96). -/
def Instr.mnemonic (i : Instr) : String :=
  match i with
  | .nop => "NOP"
  | .get _ => "GET"
  | .set _ _ => "SET"
  | .rstn => "RSTN"
  | .poll _ => "POLL"
  | .enc => "ENC"
  | .dec _ => "DEC"

/-- The port an agent presents a word on: the owner of its op (R96 column "port"); for `NOP`, accepted
on every port, and for words that are no op, HOST (log 11). -/
def portOfWord (w : Word) : Port :=
  match (opField w).toNat with
  | 4 => .map
  | 5 => .tx
  | 6 => .rx
  | _ => .host

/-- A row's word as the command port carries it: the low `nbits` bits of `w`, every higher bit 0. A
command is one 32-bit word with bit 0 its least significant bit (R11, R90). -/
def commandWord (nbits w : Nat) : Word := BitVec.ofNat 32 (w % 2 ^ nbits)

/-- The op the decoder reads from a word of opcode_table.json. -/
def decodeTableWord (nbits w : Nat) : Option Instr :=
  match decode (commandWord nbits w) with
  | .ok i => some i
  | .error _ => none

end Sys2Proof
end

