-- ==== Sys2Proof/Machine/Constants.lean ====
section
/-! DEFINITION. The constants of 00_scope.md R7: "A model takes them as constants, not as arguments".
Kept in a file of Machine/ because the spec calls SBG's literals unaudited (R7). -/

namespace Sys2Proof.Machine

/-- `HEADER`, frame byte 0 (R7, R80). -/
def headerByte : Byte := 0x0F#8

/-- `FLAGS`, frame byte 23 as emitted (R7, R83). -/
def flagsByte : Byte := 0x00#8

/-- `FOOTER`, frame byte 24 (R7, R80). -/
def footerByte : Byte := 0x00#8

/-- `FRAME_LEN`, the bytes in a frame, and the least length `DEC` accepts (R7, R190). -/
def frameLen : Nat := 25

/-- `STEP`: what one poll tick adds to or takes from a stepping channel (R7, R142). -/
def stepSize : Chan := 10#11

/-- `HI`: upper bound of a continuous channel (R7). -/
def hiBound : Chan := 1680#11

/-- `LO`: lower bound of a continuous channel (R7). -/
def loBound : Chan := 360#11

/-- `SWVAL`: channel value for switch position 1, 2, 3 (R7). -/
def swVal : Vector Chan 3 := #v[500#11, 1000#11, 1500#11]

/-- `NEUTRAL`: reset and `reset_to_neutral` value of `CH[0..15]` (R7, R22). -/
def neutral : Vector Chan 16 :=
  #v[1000#11, 1000#11, 1000#11, 1000#11, 500#11, 1000#11, 500#11, 500#11,
     500#11, 500#11, 500#11, 500#11, 500#11, 500#11, 500#11, 500#11]

/-- `SW_NEUTRAL`: reset and `reset_to_neutral` value of every Switch State slot (R7). -/
def swNeutral : Pos := 1#2

end Sys2Proof.Machine
end

