-- ==== Sys2Proof/Machine/State.lean ====
section
/-! DEFINITION. The state: the three register files of the block (10_state.md R20), the op in progress
on each port (R43(b)), and, kept apart from them (R34), what crosses the block's boundary; the state
after reset (R35, 70_reset_and_hazards.md R260); the machine's stops. -/

namespace Sys2Proof.Machine

/-! ### The block's registers -/

/-- The complete architectural state of the block (R20): 210 bits in three register files. -/
structure Slots where
  /-- `CH[0..15]`, the Channel Vector (R21). -/
  ch : Vector Chan 16
  /-- `SW[0..10]`, the Switch State (R25). -/
  sw : Vector Pos 11
  /-- `LATCH[0..11]`, the Key-Debounce Set (R30): `true` when the key is latched. -/
  latch : Vector Bool 12
deriving DecidableEq, Repr

/-! ### Slot events -/

/-- A direction of `STEP` (R142). -/
inductive Dir where
  | up
  | down
deriving DecidableEq, Repr

/-- An edge-triggered key (R31): the toggle key of slot `j`, or the reset key. -/
inductive EdgeKey where
  | tog (j : Fin 11)
  | rst
deriving DecidableEq, Repr

/-- One read or write of one slot (R60, R62), with what the op does with a value it reads. -/
inductive SlotEvent where
  /-- `t[k] <- CH[k]`: the read of `GET` and the reads of `ENC` (R121, R170). -/
  | sample (k : Fin 16)
  /-- The read of `STEP`, whose bound test decides whether a write follows (R142). -/
  | stepRead (k : Fin 4) (dir : Dir)
  /-- The read of `LATCH` by `EDGE` on a key sampled high (R144). -/
  | edgeRead (key : EdgeKey)
  /-- The read of `SW[j]` by `TOG`, whose two writes depend on it (R145). -/
  | togRead (j : Fin 11)
  /-- `CH[k] <- v`. -/
  | writeCh (k : Fin 16) (v : Chan)
  /-- `SW[j] <- p`. -/
  | writeSw (j : Fin 11) (p : Pos)
  /-- `LATCH[m] <- b`. -/
  | writeLatch (m : Fin 12) (b : Bool)
deriving DecidableEq, Repr

/-- Slot events of one op that may occur in any order: one or more (R62). -/
structure Stage where
  first : SlotEvent
  others : List SlotEvent
deriving DecidableEq, Repr

/-- What an op returns once all its slot events have occurred. -/
inductive Ret where
  /-- `OK` and nothing else (`SET`, `RSTN`, `POLL`). -/
  | done
  /-- `OK` and the value read from `CH[k]` (`GET`, R121). -/
  | value (k : Fin 16)
  /-- `OK` and the frame of the sampled values (`ENC`, R170). -/
  | frame
deriving DecidableEq, Repr

/-- An op in progress (R43(b)): "the slots it has already read or written and the values it holds in
flight". The events of a stage occur in any order, the stages one after another (R62, D26). -/
structure Job where
  ret : Ret
  /-- The channel values already sampled (log 7). -/
  samples : Vector Chan 16
  /-- The pending slot events. -/
  stages : List Stage
deriving DecidableEq, Repr

/-! ### The boundary of the block -/

/-- The result of an op (R90, R230): a status and, per op, a value, a frame or the decoded values. A
failing op has no value at all (R196). -/
inductive OpResult where
  | ok
  | okValue (v : Chan)
  | okFrame (frame : Vector Byte 25)
  | okDecoded (d : Vector Chan 12)
  | short
  | illegal
deriving DecidableEq, Repr

/-- The byte lanes `BUF` beside a command word; `len` of them, at most 255, are valid (R95, log 9). -/
abbrev Buf := Vector Byte 255

/-- What an agent presents to request one op (R90): the command word and the bulk operand. -/
structure Request where
  cw : Word
  buf : Buf
deriving DecidableEq, Repr

/-- One port: the requests its agent will issue, in the agent's order (R63), the op in progress, and the
result last returned (log 4). -/
structure PortState where
  queue : List Request
  job : Option Job
  result : Option OpResult
deriving DecidableEq, Repr

/-- The four ports (R241). -/
structure Ports where
  map : PortState
  tx : PortState
  rx : PortState
  host : PortState
deriving DecidableEq, Repr

/-- How many slot events of an op occur before those of other agents may (R62): the events named by
`picks`, each by its place in the stage it is taken from, and then all the rest if `whole`. -/
structure Burst where
  picks : List Nat
  whole : Bool
deriving DecidableEq, Repr

/-- One piece of the slot order (R61): the next slot events are those of `port`'s op; or the hardware
reset is asserted (R262). -/
inductive Move where
  | act (port : Port) (burst : Burst)
  | reset
deriving DecidableEq, Repr

/-- The turn being performed: its port, the bulk operand of the command and the burst (log 10). -/
structure Bus where
  port : Port
  buf : Buf
  burst : Burst
deriving DecidableEq, Repr

/-! ### The whole state -/

/-- The state of the model. `slots` and the jobs in `ports` are the block's; the rest is what the agents
do at its boundary, the slot order as far as it is laid down, and the parameters of R9. -/
structure State where
  slots : Slots
  ports : Ports
  bus : Bus
  sched : List Move
  /-- Counter of the free choices made so far (log 3). -/
  tick : Nat
  params : Params
deriving DecidableEq, Repr

/-- `CH`, `SW` and `LATCH` after reset (R35, R260). -/
def Slots.reset : Slots :=
  { ch := neutral, sw := Vector.replicate 11 swNeutral, latch := Vector.replicate 12 false }

/-- A port on which nothing has been requested: no op in progress and nothing starts running (R262). -/
def PortState.idle : PortState := { queue := [], job := none, result := none }

/-- The state right after reset: the registers as R35 states them, no op in progress, nothing requested,
the parameters at the defaults of R9. -/
def State.reset : State :=
  { slots := Slots.reset
    ports := { map := .idle, tx := .idle, rx := .idle, host := .idle }
    bus := { port := .host, buf := Vector.replicate 255 0#8, burst := { picks := [], whole := true } }
    sched := []
    tick := 0
    params := Params.default }

/-! ### Stops -/

/-- The faults of the machine: none. A failing op "completes like any other, with a status in place of
its result" (R236), and "a model therefore has no stuck state" (R276); log 13. -/
inductive Fault where
deriving DecidableEq, Repr

/-- The refusals of the model. -/
inductive Refusal where
  /-- Raised by an arm of `exec` for an instruction that has no meaning yet. Safe: nothing can be proved
  of what the instruction does. -/
  | notModelled (mnemonic : String)
deriving DecidableEq, Repr

end Sys2Proof.Machine
end

