-- ==== Sys2Proof/Machine/Flags.lean ====
section
/-! DEFINITION. The block has no flags, condition codes or predicates (10_state.md R41). In their place
every op returns a status code, which is not stored (60_exceptions.md R230). -/

namespace Sys2Proof.Machine

/-- The status codes an op can return (R230); the code 3 is never returned. -/
inductive Status where
  | ok
  | short
  | illegal
deriving DecidableEq, Repr

/-- The 2-bit code of a status (R230). -/
def Status.code (st : Status) : BitVec 2 :=
  match st with
  | .ok => 0#2
  | .short => 1#2
  | .illegal => 2#2

/-- The status of a result (R230). -/
def OpResult.status (r : OpResult) : Status :=
  match r with
  | .ok => .ok
  | .okValue _ => .ok
  | .okFrame _ => .ok
  | .okDecoded _ => .ok
  | .short => .short
  | .illegal => .illegal

end Sys2Proof.Machine
end

