-- ==== Sys2Proof/Machine/Frame.lean ====
section
/-! DEFINITION. The SBUS frame: the pure functions `pack` and `unpack` (20_memory.md R52,
42_frame_encoder.md R171, 43_frame_decoder.md R191). -/

namespace Sys2Proof.Machine

/-- `t[k] << (11 * k)` as a payload of 176 bits (R52, R171). -/
def fieldAt (v : Chan) (k : Fin 16) : BitVec 176 := v.setWidth 176 <<< (11 * k.val)

/-- The payload integer `P`: field `k` at stream bits `11k` to `11k+10` (R52, R171). -/
def payload (t : Vector Chan 16) : BitVec 176 :=
  (List.finRange 16).foldl (fun p k => p ||| fieldAt t[k] k) 0#176

/-- Byte `i` of the frame with payload `p`: header, 22 payload bytes from the low end of `p`, flags,
footer (R80, R171). -/
def frameByte (p : BitVec 176) (i : Nat) : Byte :=
  if i = 0 then headerByte
  else if i ≤ 22 then p.extractLsb' (8 * (i - 1)) 8
  else if i = 23 then flagsByte
  else footerByte

/-- `pack(t)`: 16 values of 11 bits to the 25 bytes of a frame (R171). -/
def pack (t : Vector Chan 16) : Vector Byte 25 :=
  let p := payload t
  Vector.ofFn fun i => frameByte p i.val

/-- `unpack(BUF, k)`: field `k` cut from a 24-bit little-endian window of the buffer (R191). -/
def unpack (buf : Buf) (k : Fin 12) : Chan :=
  let s := 11 * k.val
  let b := 1 + s / 8
  let o := s % 8
  let w : BitVec 24 := buf[b + 2]'(by omega) ++ buf[b + 1]'(by omega) ++ buf[b]'(by omega)
  ((w >>> o) &&& 0x07FF#24).setWidth 11

/-- The 12 values `DEC` extracts (R190); channels 13 to 16 are not reconstructed (R194). -/
def unpackAll (buf : Buf) : Vector Chan 12 := Vector.ofFn fun k => unpack buf k

end Sys2Proof.Machine
end

