-- ==== Sys2Proof/Machine/Operands.lean ====
section
/-! DEFINITION. Operand forms and the arithmetic of the block: key levels, channel and slot maps, the
guarded step, the position after a position, and `BUF` (10_state.md R22, R26, R27, R31;
41_input_mapper.md R141 to R145, R153). -/

namespace Sys2Proof.Machine

/-! ### Slot maps -/

/-- The channel register of stepping channel `k` (R22): the same index. -/
def stepCh (k : Fin 4) : Fin 16 := k.castLE (by decide)

/-- The channel register of the snap channel, channel number 6 (R22). -/
def snapCh : Fin 16 := 5

/-- `swch(j)`: the channel register of Switch State slot `j` (R26). -/
def swch (j : Fin 11) : Fin 16 := if j.val = 0 then 4 else ⟨j.val + 5, by omega⟩

/-- The latch of an edge-triggered key (R31). -/
def EdgeKey.latch (key : EdgeKey) : Fin 12 :=
  match key with
  | .tog j => j.castLE (by decide)
  | .rst => 11

/-! ### Key levels (R141) -/

/-- `inc = keys[2k]` of stepping channel `k` (R142). -/
def incKey (keys : BitVec 22) (k : Fin 4) : Bool := keys.getLsbD (2 * k.val)

/-- `dec = keys[2k+1]` of stepping channel `k` (R142). -/
def decKey (keys : BitVec 22) (k : Fin 4) : Bool := keys.getLsbD (2 * k.val + 1)

/-- `hi = keys[8]`, the key `HI6` (R143). -/
def hiKey (keys : BitVec 22) : Bool := keys.getLsbD 8

/-- `lo = keys[9]`, the key `LO6` (R143). -/
def loKey (keys : BitVec 22) : Bool := keys.getLsbD 9

/-- The level of an edge-triggered key: `keys[10+j]` of slot `j` (R145), `keys[21]` of the reset key
(R146). -/
def EdgeKey.level (keys : BitVec 22) (key : EdgeKey) : Bool :=
  match key with
  | .tog j => keys.getLsbD (10 + j.val)
  | .rst => keys.getLsbD 21

/-- The direction in which a stepping channel moves on a tick: the increment key has priority, also when
the bound blocks it (R142(a)). -/
def stepDir (inc dec : Bool) : Option Dir :=
  if inc then some .up else if dec then some .down else none

/-- The value `SNAP` writes, `HI6` before `LO6` (R143). -/
def snapValue (hi lo : Bool) : Option Chan :=
  if hi then some hiBound else if lo then some loBound else none

/-! ### Arithmetic (R153) -/

/-- The value `STEP` writes after reading `v`, none when the bound test fails. The bound is a test before
the step, not a saturation after it (R142(d)). -/
def stepValue (dir : Dir) (v : Chan) : Option Chan :=
  match dir with
  | .up => if v < hiBound then some (v + stepSize) else none
  | .down => if loBound < v then some (v - stepSize) else none

/-- `(s mod 3) + 1`, the switch position after `s` (R145), evaluated by the same formula on the
unreachable `0b00` (R27, log 18). -/
def nextPos (s : Pos) : Pos := BitVec.ofNat 2 (s.toNat % 3 + 1)

/-- `SWVAL[s - 1]`, the channel value of switch position `s` (R145). Nothing writes position 0; there the
index is 0 (log 18). -/
def swValue (s : Pos) : Chan := swVal[s.toNat - 1]'(by have := s.isLt; omega)

/-! ### The bulk operand -/

/-- `BUF` as an agent presents a byte sequence: its first 255 bytes on the lanes (R95). DESIGN CHOICE (log 14):
the lanes past its end hold 0. No op reads them when `len` is at most the number of bytes; a `DEC` whose `len`
is greater counts them as valid and may read them. -/
def Buf.ofBytes (bytes : List Byte) : Buf :=
  Vector.ofFn fun i => bytes.getD i.val 0#8

end Sys2Proof.Machine
end

