-- ==== Sys2Proof/Machine/Ops.lean ====
section
/-! DEFINITION. The named operations over the state: slot reads and writes (00_scope.md R12, 20_memory.md
R60), ports, answering an op (60_exceptions.md R230, R233, R236), the slot events of an op in progress
(R61, R62) and the running of an op. -/

namespace Sys2Proof.Machine

/-! ### Slots (R12) -/

/-- `CH[k]`: one slot read. In the family's notation `MemRead(k, 1)` (R12). -/
def Slots.getCh (sl : Slots) (k : Fin 16) : Chan := sl.ch[k]

/-- `CH[k] <- v`: one slot write. In the family's notation `MemWrite(k, 1, v)` (R12). -/
def Slots.setCh (sl : Slots) (k : Fin 16) (v : Chan) : Slots := { sl with ch := sl.ch.set k v }

/-- `SW[j]` (R12). -/
def Slots.getSw (sl : Slots) (j : Fin 11) : Pos := sl.sw[j]

/-- `SW[j] <- p` (R12). -/
def Slots.setSw (sl : Slots) (j : Fin 11) (p : Pos) : Slots := { sl with sw := sl.sw.set j p }

/-- `LATCH[m]` (R12). -/
def Slots.getLatch (sl : Slots) (m : Fin 12) : Bool := sl.latch[m]

/-- `LATCH[m] <- b` (R12). -/
def Slots.setLatch (sl : Slots) (m : Fin 12) (b : Bool) : Slots :=
  { sl with latch := sl.latch.set m b }

/-- The procedure `reset_to_neutral()` (R124): all of `CH` and `SW`; `LATCH` is left as it is. -/
def Slots.resetToNeutral (sl : Slots) : Slots :=
  { sl with ch := neutral, sw := Vector.replicate 11 swNeutral }

/-! ### Ports -/

/-- The state of a port. -/
def Ports.get (ps : Ports) (p : Port) : PortState :=
  match p with
  | .map => ps.map
  | .tx => ps.tx
  | .rx => ps.rx
  | .host => ps.host

/-- Replaces the state of a port. -/
def Ports.set (ps : Ports) (p : Port) (q : PortState) : Ports :=
  match p with
  | .map => { ps with map := q }
  | .tx => { ps with tx := q }
  | .rx => { ps with rx := q }
  | .host => { ps with host := q }

/-- The port `p` of the state. -/
def State.port (s : State) (p : Port) : PortState := s.ports.get p

/-- Replaces the state of port `p`. -/
def State.setPort (s : State) (p : Port) (q : PortState) : State :=
  { s with ports := s.ports.set p q }

/-- Returns result `r` on the port of the turn: the op is complete (R90, R230). A failing op ends in the
same way, with nothing saved and control going nowhere (R236). -/
def State.answer (s : State) (r : OpResult) : State :=
  s.setPort s.bus.port { s.port s.bus.port with job := none, result := some r }

/-- Runs `k` when the port of the turn owns the op; any other port answers `ILLEGAL` and nothing changes
(R97, R233, R241). -/
def State.ifAccepted (s : State) (i : Instr) (k : State) :
    Host.Outcome State Fault Refusal :=
  if i.acceptedOn s.bus.port then .next k else .next (s.answer .illegal)

/-! ### Slot events (R60 to R62) -/

/-- The stage holding a list of events: none for an action that accesses no slot. -/
def Stage.ofList (events : List SlotEvent) : List Stage :=
  match events with
  | [] => []
  | e :: es => [{ first := e, others := es }]

/-- The 27 slot writes of `reset_to_neutral` (R124). -/
def neutralWrites : List SlotEvent :=
  (List.finRange 16).map (fun k => .writeCh k neutral[k]) ++
    (List.finRange 11).map (fun j => .writeSw j swNeutral)

/-- What an edge-triggered key does when it fires (R145, R146). -/
def EdgeKey.fired (key : EdgeKey) : List SlotEvent :=
  match key with
  | .tog j => [.togRead j]
  | .rst => neutralWrites

/-- What one slot event does: the slots after it, the events that depend on the value it read, and the
values sampled so far. -/
structure EventEffect where
  slots : Slots
  more : List SlotEvent
  samples : Vector Chan 16
deriving DecidableEq, Repr

/-- Performs one slot event. A read answers the latest write to its slot (R61). -/
def SlotEvent.perform (e : SlotEvent) (sl : Slots) (t : Vector Chan 16) : EventEffect :=
  match e with
  | .sample k => { slots := sl, more := [], samples := t.set k (sl.getCh k) }
  | .stepRead k dir =>
    { slots := sl, samples := t
      more := match stepValue dir (sl.getCh (stepCh k)) with
        | some v => [.writeCh (stepCh k) v]
        | none => [] }
  | .edgeRead key =>
    { slots := sl, samples := t
      more := if sl.getLatch key.latch then [] else .writeLatch key.latch true :: key.fired }
  | .togRead j =>
    let p := nextPos (sl.getSw j)
    { slots := sl, more := [.writeSw j p, .writeCh (swch j) (swValue p)], samples := t }
  | .writeCh k v => { slots := sl.setCh k v, more := [], samples := t }
  | .writeSw j p => { slots := sl.setSw j p, more := [], samples := t }
  | .writeLatch m b => { slots := sl.setLatch m b, more := [], samples := t }

/-- The next slot event of an op in progress: number `n` of its first stage, counted round. The events
that depend on it join the stage, so they come after it (R62). -/
def Job.event (n : Nat) (x : Slots × Job) : Slots × Job :=
  match x.2.stages with
  | [] => x
  | stage :: rest =>
    let events := stage.first :: stage.others
    let i := n % events.length
    let r := (events.getD i stage.first).perform x.1 x.2.samples
    (r.slots,
      { x.2 with samples := r.samples, stages := Stage.ofList (r.more ++ events.eraseIdx i) ++ rest })

/-- The most slot events an event and those that depend on it can amount to. -/
def SlotEvent.weight (e : SlotEvent) : Nat :=
  match e with
  | .sample _ => 1
  | .stepRead _ _ => 2
  | .edgeRead (.tog _) => 5
  | .edgeRead .rst => 29
  | .togRead _ => 3
  | .writeCh _ _ => 1
  | .writeSw _ _ => 1
  | .writeLatch _ _ => 1

/-- The most slot events a stage can amount to. -/
def Stage.weight (st : Stage) : Nat :=
  ((st.first :: st.others).map SlotEvent.weight).sum

/-- The most slot events an op in progress still has before it. -/
def Job.weight (j : Job) : Nat := (j.stages.map Stage.weight).sum

/-- The next `n` slot events, each the first of its stage. -/
def Job.events (n : Nat) (x : Slots × Job) : Slots × Job :=
  match n with
  | 0 => x
  | n + 1 => Job.events n (Job.event 0 x)

/-- The adjacent slot events of one burst (R62): those the burst picks, then all the rest if it is
whole. -/
def Job.run (b : Burst) (x : Slots × Job) : Slots × Job :=
  let y := b.picks.foldl (fun y n => Job.event n y) x
  if b.whole then Job.events y.2.weight y else y

/-- What an op returns when all its slot events have occurred. -/
def Job.answer (j : Job) : OpResult :=
  match j.ret with
  | .done => .ok
  | .value k => .okValue j.samples[k]
  | .frame => .okFrame (pack j.samples)

/-- An op about to perform its first slot event (log 7). -/
def Job.start (ret : Ret) (stages : List Stage) : Job :=
  { ret := ret, samples := Vector.replicate 16 0#11, stages := stages }

/-! ### Running an op -/

/-- Records what a burst of port `p`'s op did. The op completes when no slot event is left (R62);
otherwise it stays in progress and its result is not there yet. -/
def State.settle (s : State) (p : Port) (x : Slots × Job) : State :=
  let q := s.port p
  { s with slots := x.1 }.setPort p
    (if x.2.stages.isEmpty then { q with job := none, result := some x.2.answer }
     else { q with job := some x.2, result := none })

/-- An op begins on the port of the turn. With `P_ATOMIC_OPS` it is the one transition `atomic` (R66);
otherwise as many of its slot events occur as the burst of the turn says (R62). -/
def State.launch (s : State) (job : Job) (atomic : Slots × OpResult) : State :=
  if s.params.atomicOps then { s with slots := atomic.1 }.answer atomic.2
  else s.settle s.bus.port (Job.run s.bus.burst (s.slots, job))

/-- The op in progress on port `p` goes on for a burst; whole when ops are atomic. -/
def State.advance (s : State) (p : Port) (b : Burst) : State :=
  match (s.port p).job with
  | none => s
  | some j =>
    s.settle p (Job.run (if s.params.atomicOps then { b with whole := true } else b) (s.slots, j))

/-- The hardware reset (R260, R262): the registers take their reset values, and an op in progress is
abandoned without a result. What the agents hold is theirs and stays (log 8). -/
def State.hardReset (s : State) : State :=
  let drop (q : PortState) : PortState := { q with job := none }
  { s with
    slots := Slots.reset
    ports := { map := drop s.ports.map, tx := drop s.ports.tx,
               rx := drop s.ports.rx, host := drop s.ports.host } }

end Sys2Proof.Machine
end

