-- ==== Sys2Proof/Machine/ChannelStore.lean ====
section
/-! DEFINITION. The Channel Store ops `NOP`, `GET`, `SET`, `RSTN` (40_channel_store.md R120 to R124). -/

namespace Sys2Proof.Machine

/-- `NOP` (R120): `OK` on every port, no slot event. -/
def execNop (s : State) : Host.Outcome State Fault Refusal :=
  s.ifAccepted .nop (s.answer .ok)

/-- `GET idx` (R121): one slot read, `OK` and the value read. -/
def execGet (idx : Fin 16) (s : State) : Host.Outcome State Fault Refusal :=
  s.ifAccepted (.get idx)
    (s.launch (Job.start (.value idx) (Stage.ofList [.sample idx]))
      (s.slots, .okValue (s.slots.getCh idx)))

/-- `SET idx, val` (R122): one slot write with no check of any kind; `SW` and `LATCH` are not touched. -/
def execSet (idx : Fin 16) (val : Chan) (s : State) : Host.Outcome State Fault Refusal :=
  s.ifAccepted (.set idx val)
    (s.launch (Job.start .done (Stage.ofList [.writeCh idx val])) (s.slots.setCh idx val, .ok))

/-- `RSTN` (R123): `reset_to_neutral` (R124), 27 slot writes in any order. -/
def execRstn (s : State) : Host.Outcome State Fault Refusal :=
  s.ifAccepted .rstn
    (s.launch (Job.start .done (Stage.ofList neutralWrites)) (s.slots.resetToNeutral, .ok))

end Sys2Proof.Machine
end

