-- ==== Sys2Proof/Machine/FrameDecoder.lean ====
section
/-! DEFINITION. The Frame Decoder op `DEC` (43_frame_decoder.md R190 to R196). -/

namespace Sys2Proof.Machine

/-- The result of `DEC` as a function of its operand alone (R190, R71): `SHORT` and no value below 25
bytes, else the 12 values; nothing is validated (R192). -/
def decodeResult (len : BitVec 8) (buf : Buf) : OpResult :=
  if len.toNat < frameLen then .short else .okDecoded (unpackAll buf)

/-- `DEC len` (R190) on the bytes presented beside the command word; no slot event. -/
def execDec (len : BitVec 8) (s : State) : Host.Outcome State Fault Refusal :=
  s.ifAccepted (.dec len) (s.answer (decodeResult len s.bus.buf))

end Sys2Proof.Machine
end

