-- ==== Sys2Proof/Machine/FrameEncoder.lean ====
section
/-! DEFINITION. The Frame Encoder op `ENC` (42_frame_encoder.md R170 to R176). -/

namespace Sys2Proof.Machine

/-- The 16 slot reads of `ENC`, in any order (R170). -/
def encodeReads : List SlotEvent := (List.finRange 16).map SlotEvent.sample

/-- `ENC` (R170): samples the 16 channel registers and returns their frame; no state is written. -/
def execEnc (s : State) : Host.Outcome State Fault Refusal :=
  s.ifAccepted .enc
    (s.launch (Job.start .frame (Stage.ofList encodeReads)) (s.slots, .okFrame (pack s.slots.ch)))

end Sys2Proof.Machine
end

