-- ==== Sys2Proof/Machine/InputMapper.lean ====
section
/-! DEFINITION. The Input Mapper op `POLL` (41_input_mapper.md R140 to R150): its actions `STEP`, `SNAP`,
`EDGE`, `TOG`, `KRST` and one tick, once as the pseudocode's functions on the slots and once as the slot
events of R62. Both are built on the arithmetic and the key levels of Operands.lean. -/

namespace Sys2Proof.Machine

/-! ### The actions as functions on the slots -/

/-- Action `STEP` (R142) of stepping channel `k`. -/
def Slots.step (sl : Slots) (keys : BitVec 22) (k : Fin 4) : Slots :=
  match stepDir (incKey keys k) (decKey keys k) with
  | none => sl
  | some dir =>
    match stepValue dir (sl.getCh (stepCh k)) with
    | some v => sl.setCh (stepCh k) v
    | none => sl

/-- Action `SNAP` (R143). -/
def Slots.snap (sl : Slots) (keys : BitVec 22) : Slots :=
  match snapValue (hiKey keys) (loKey keys) with
  | some v => sl.setCh snapCh v
  | none => sl

/-- `fire` of the edge detector `EDGE` (R144): the key is sampled high and not latched. -/
def Slots.fires (sl : Slots) (keys : BitVec 22) (key : EdgeKey) : Bool :=
  key.level keys && !sl.getLatch key.latch

/-- The latch after `EDGE` (R144): set by a press edge, kept while held, cleared when released. -/
def Slots.edge (sl : Slots) (keys : BitVec 22) (key : EdgeKey) : Slots :=
  if key.level keys then
    if sl.getLatch key.latch then sl else sl.setLatch key.latch true
  else sl.setLatch key.latch false

/-- What `TOG` does when it fires (R145): the slot advances and its channel takes the value of the new
position. -/
def Slots.advanceSw (sl : Slots) (j : Fin 11) : Slots :=
  let p := nextPos (sl.getSw j)
  (sl.setSw j p).setCh (swch j) (swValue p)

/-- Action `TOG` (R145) of slot `j`. -/
def Slots.tog (sl : Slots) (keys : BitVec 22) (j : Fin 11) : Slots :=
  let sl' := sl.edge keys (.tog j)
  if sl.fires keys (.tog j) then sl'.advanceSw j else sl'

/-- Action `KRST` (R146). -/
def Slots.krst (sl : Slots) (keys : BitVec 22) : Slots :=
  let sl' := sl.edge keys .rst
  if sl.fires keys .rst then sl'.resetToNeutral else sl'

/-- The 16 actions other than `KRST`, in the order R147 writes them. -/
def Slots.mapActions (sl : Slots) (keys : BitVec 22) : Slots :=
  let sl := (List.finRange 4).foldl (fun sl k => sl.step keys k) sl
  let sl := sl.snap keys
  (List.finRange 11).foldl (fun sl j => sl.tog keys j) sl

/-- One tick (R147), `KRST` after or before the other 16 actions (R150). -/
def Slots.pollTick (sl : Slots) (order : ResetOrder) (keys : BitVec 22) : Slots :=
  match order with
  | .last => (sl.mapActions keys).krst keys
  | .first => (sl.krst keys).mapActions keys

/-! ### The actions as slot events -/

/-- The slot events of `STEP`: none when neither key is held (R142). -/
def stepEvents (keys : BitVec 22) (k : Fin 4) : List SlotEvent :=
  match stepDir (incKey keys k) (decKey keys k) with
  | none => []
  | some dir => [.stepRead k dir]

/-- The slot events of `SNAP`: a write without a read (R143). -/
def snapEvents (keys : BitVec 22) : List SlotEvent :=
  match snapValue (hiKey keys) (loKey keys) with
  | some v => [.writeCh snapCh v]
  | none => []

/-- The slot events of `TOG` and of `KRST` begin with those of `EDGE` (R144): a read of the latch when the
key is sampled high, else a write of 0 "even if already 0". -/
def edgeEvents (keys : BitVec 22) (key : EdgeKey) : List SlotEvent :=
  if key.level keys then [.edgeRead key] else [.writeLatch key.latch false]

/-- The stages of the 16 actions other than `KRST`: one action after another (R147, D26). -/
def mapStages (keys : BitVec 22) : List Stage :=
  (List.finRange 4).flatMap (fun k => Stage.ofList (stepEvents keys k)) ++
    Stage.ofList (snapEvents keys) ++
    (List.finRange 11).flatMap (fun j => Stage.ofList (edgeEvents keys (.tog j)))

/-- The stages of one tick (R147, R150). -/
def pollStages (order : ResetOrder) (keys : BitVec 22) : List Stage :=
  match order with
  | .last => mapStages keys ++ Stage.ofList (edgeEvents keys .rst)
  | .first => Stage.ofList (edgeEvents keys .rst) ++ mapStages keys

/-- `POLL keys` (R140): one tick, always `OK`. -/
def execPoll (keys : BitVec 22) (s : State) : Host.Outcome State Fault Refusal :=
  s.ifAccepted (.poll keys)
    (s.launch (Job.start .done (pollStages s.params.resetOrder keys))
      (s.slots.pollTick s.params.resetOrder keys, .ok))

end Sys2Proof.Machine
end

