-- ==== Sys2Proof/Machine/Dispatch.lean ====
section
/-! DEFINITION. One arm per op: each a direct call of its meaning. -/

namespace Sys2Proof.Machine

def exec (i : Instr) (s : State) : Host.Outcome State Fault Refusal :=
  match i with
  | .nop => Sys2Proof.Machine.execNop s
  | .get idx => Sys2Proof.Machine.execGet idx s
  | .set idx val => Sys2Proof.Machine.execSet idx val s
  | .rstn => Sys2Proof.Machine.execRstn s
  | .poll keys => Sys2Proof.Machine.execPoll keys s
  | .enc => Sys2Proof.Machine.execEnc s
  | .dec len => Sys2Proof.Machine.execDec len s

end Sys2Proof.Machine
end

