-- ==== Sys2Proof/Machine/Schedule.lean ====
section
/-! DEFINITION. What comes next: the next piece of the slot order (20_memory.md R61 to R63), and an
agent's next command (30_encoding.md R90). It stands in place of a fetch: the block has no program
counter and no instruction memory (10_state.md R40, R70). -/

namespace Sys2Proof.Machine

/-- A port with something to do: an op in progress, or a request its agent will issue. -/
def PortState.pending (q : PortState) : Bool := q.job.isSome || !q.queue.isEmpty

/-- The ports with something to do. -/
def State.pendingPorts (s : State) : List Port :=
  [Port.map, .tx, .rx, .host].filter fun p => (s.port p).pending

/-- The next piece of the slot order, and the state that remains. Where `sched` lays none down, any port
with something to do may act (R61, R238(c)): one slot event, any of those R62 admits, both left to the
free choice (log 3). None when the block is idle (R248). -/
def State.nextMove (s : State) : Option (Move × State) :=
  match s.sched with
  | m :: rest => some (m, { s with sched := rest })
  | [] =>
    match s.pendingPorts with
    | [] => none
    | p :: ps =>
      some
        (.act ((p :: ps).getD (Config.freeChoice s.tick % (ps.length + 1)) p)
            { picks := [Config.freeChoice (s.tick + 1)], whole := false },
          { s with tick := s.tick + 2 })

/-- The agent of port `p` presents its next command (R90): the word, and the state in which the op runs.
The agent has taken the previous result (R63, R223(a)). None when the agent issues nothing. -/
def State.present (s : State) (p : Port) (b : Burst) : Option (Word × State) :=
  match (s.port p).queue with
  | [] => none
  | r :: rest =>
    some (r.cw,
      { s with bus := { port := p, buf := r.buf, burst := b } }.setPort p
        { queue := rest, job := none, result := none })

/-- The state in which the agent of port `p` issues `cw` with a bulk operand of zeros at once and no other
agent's slot events fall between those of the op (log 11). -/
def State.withCommand (s : State) (p : Port) (cw : Word) : State :=
  { s with sched := .act p { picks := [], whole := true } :: s.sched }.setPort p
    { s.port p with
      queue := { cw := cw, buf := Vector.replicate 255 0#8 } :: (s.port p).queue
      job := none }

end Sys2Proof.Machine
end

