-- ==== Sys2Proof/Machine/Step.lean ====
section
/-! DEFINITION. One step of the machine: the next piece of the slot order. An op that is in progress goes
on; otherwise the port's agent issues its next command, which is decoded and run. -/

namespace Sys2Proof.Machine

/-- The answer to a command word presented on the port of the turn: the op of a legal word runs, an illegal
word is answered `ILLEGAL` and changes nothing (R97, R233). -/
def runWord (w : Word) (s : State) : Host.Outcome State Fault Refusal :=
  match decode w with
  | .ok i => exec i s
  | .error _ => .next (s.answer .illegal)

/-- A turn of port `p` (R62, R63): one op at a time per port. -/
def turn (p : Port) (b : Burst) (s : State) : Host.Outcome State Fault Refusal :=
  if (s.port p).job.isSome then .next (s.advance p b)
  else
    match s.present p b with
    | none => .next s
    | some (w, s') => runWord w s'

/-- One step (R40): what is done next is chosen by the agents and the slot order, never by an op. A block
with nothing to do keeps its whole state (R248). -/
def step (s : State) : Host.Outcome State Fault Refusal :=
  match s.nextMove with
  | none => .next s
  | some (.reset, s') => .next s'.hardReset
  | some (.act p b, s') => turn p b s'

/-- The state in which the next step runs the op of a word of opcode_table.json: its owning port's agent
issues it (log 11). -/
def State.withFetchWord (s : State) (nbits w : Nat) : State :=
  s.withCommand (portOfWord (commandWord nbits w)) (commandWord nbits w)

end Sys2Proof.Machine
end

