-- ==== Sys2Proof/Machine/Asm.lean ====
section
/-! DEFINITION. The assembler's terms: key names to the key vector (41_input_mapper.md R141), pseudo-ops to
ops (30_encoding.md R101), a source line to the request it stands for (R100). Words and numbers are taken
as read; the characters of a line are not modelled (log 14). -/

namespace Sys2Proof

/-- The bit of `keys` of a key input (R141). -/
def Key.bit (key : Key) : Nat :=
  match key with
  | .inc1 => 0
  | .dec1 => 1
  | .inc2 => 2
  | .dec2 => 3
  | .inc3 => 4
  | .dec3 => 5
  | .inc4 => 6
  | .dec4 => 7
  | .hi6 => 8
  | .lo6 => 9
  | .tog5 => 10
  | .tog7 => 11
  | .tog8 => 12
  | .tog9 => 13
  | .tog10 => 14
  | .tog11 => 15
  | .tog12 => 16
  | .tog13 => 17
  | .tog14 => 18
  | .tog15 => 19
  | .tog16 => 20
  | .rst => 21

/-- A `+`-joined list of key names (R100): those keys held, every other key up. -/
def keysOf (names : List Key) : BitVec 22 :=
  names.foldl (fun keys key => keys ||| BitVec.twoPow 22 key.bit) 0#22

/-- A channel number 1 to 16 as a channel index (R10, R101). -/
def indexOfNumber (n : Nat) : Option (Fin 16) :=
  if h : 1 ≤ n ∧ n ≤ 16 then some ⟨n - 1, by omega⟩ else none

/-- The expansion of a pseudo-op (R101); none for a channel number that names no channel. -/
def Pseudo.expand (p : Pseudo) : Option (List Instr) :=
  match p with
  | .setCh n val => (indexOfNumber n).map fun k => [.set k val]
  | .getCh n => (indexOfNumber n).map fun k => [.get k]
  | .snapshot => some ((List.finRange 16).map Instr.get)
  | .tick n keys => some (List.replicate n (.poll keys))
  | .press keys => some [.poll keys, .poll 0#22]
  | .release => some [.poll 0#22]

/-- The one port that owns an op; none for `NOP`, which every port accepts (R96). -/
def ownerOf (i : Instr) : Option Port :=
  match i with
  | .nop => none
  | .get _ => some .host
  | .set _ _ => some .host
  | .rstn => some .host
  | .poll _ => some .map
  | .enc => some .tx
  | .dec _ => some .rx

end Sys2Proof

namespace Sys2Proof.Machine

/-- The operation part of a source line (R100). -/
inductive AsmOp where
  /-- An op with its operands written out. -/
  | op (i : Instr)
  /-- `POLL` with a list of key names. -/
  | pollNames (names : List Key)
  /-- `DEC len, [b0 b1 ...]`; an omitted `len` is the count of the listed bytes. -/
  | decBytes (len : Option (BitVec 8)) (bytes : List Byte)
deriving DecidableEq, Repr

/-- A source line `AGENT: MNEMONIC operands` (R100); the agent may be left out. -/
structure AsmLine where
  agent : Option Port
  op : AsmOp
deriving DecidableEq, Repr

/-- The op and the listed bytes of a line. R100 is silent on two kinds of `DEC` line; DESIGN CHOICE (log 14): a
`len` greater than the number of listed bytes, or with no byte listed, is kept, and the missing bytes are then
the zeros of `Buf.ofBytes`; a line with more than 255 listed bytes and no `len` is none. -/
def AsmOp.parts (op : AsmOp) : Option (Instr × List Byte) :=
  match op with
  | .op i => some (i, [])
  | .pollNames names => some (.poll (keysOf names), [])
  | .decBytes (some len) bytes => some (.dec len, bytes)
  | .decBytes none bytes =>
    if bytes.length ≤ 255 then some (.dec (BitVec.ofNat 8 bytes.length), bytes) else none

/-- What a line stands for: the port and the request its agent presents (R90, R100). None where the agent
is left out and the op has no one owner. -/
def AsmLine.assemble (line : AsmLine) : Option (Port × Request) :=
  match line.op.parts with
  | none => none
  | some (i, bytes) =>
    let request : Request := { cw := encode i, buf := Buf.ofBytes bytes }
    match line.agent with
    | some p => some (p, request)
    | none => (ownerOf i).map fun p => (p, request)

end Sys2Proof.Machine
end

