-- ==== Sys2Proof/Safety.lean ====
section
/-! DEFINITION. The terms in which statements speak of the machine: what a legal state is, what an op leaves
unchanged, and when no other agent's slot events fall between those of an op. -/

namespace Sys2Proof.Machine

/-! ### Legal states -/

/-- Every Switch State slot is 1, 2 or 3 (R27): the pattern `0b00` does not occur. -/
abbrev Slots.SwLegal (sl : Slots) : Prop := ∀ j : Fin 11, sl.getSw j ≠ 0#2

/-- A pending write puts a legal position into its slot (R27). -/
def SlotEvent.writesLegalPos (e : SlotEvent) : Bool :=
  match e with
  | .writeSw _ p => p != 0#2
  | _ => true

/-- The slot events the op of a port may have (R241, columns "state it can read" and "write"). -/
def SlotEvent.allowedOn (p : Port) (e : SlotEvent) : Bool :=
  match p, e with
  | .map, .sample _ => false
  | .map, _ => true
  | .tx, .sample _ => true
  | .tx, _ => false
  | .rx, _ => false
  | .host, .sample _ => true
  | .host, .writeCh _ _ => true
  | .host, .writeSw _ _ => true
  | .host, _ => false

/-- A property of all pending slot events of an op. -/
def Job.allEvents (f : SlotEvent → Bool) (j : Job) : Bool :=
  j.stages.all fun st => (st.first :: st.others).all f

/-- A property of all pending slot events of the op in progress on port `p`, if there is one. -/
def State.jobEvents (s : State) (p : Port) (f : SlotEvent → Bool) : Bool :=
  match (s.port p).job with
  | none => true
  | some j => j.allEvents f

/-- What holds of the machine between any two steps. -/
structure State.Inv (s : State) : Prop where
  /-- `SW[j]` is 1, 2 or 3 (R27). -/
  swLegal : s.slots.SwLegal
  /-- No pending write puts another position into `SW` (R27). -/
  pendingLegal : ∀ p, s.jobEvents p SlotEvent.writesLegalPos = true
  /-- An op in progress touches only what its port may (R241). -/
  inLane : ∀ p, s.jobEvents p (SlotEvent.allowedOn p) = true
  /-- With `P_ATOMIC_OPS` no op is ever in progress between steps (R66). -/
  atomicIdle : s.params.atomicOps = true → ∀ p, (s.port p).job = none
  /-- An op in progress has not returned its result. -/
  noEarlyResult : ∀ p, (s.port p).job.isSome = true → (s.port p).result = none

/-- The coupling of Switch State slot `j` and its channel (R28). -/
abbrev Slots.Coupled (sl : Slots) (j : Fin 11) : Prop :=
  sl.getCh (swch j) = swValue (sl.getSw j)

/-- The values `POLL` alone can reach from reset (R152). -/
structure Slots.PollReachable (sl : Slots) : Prop where
  /-- `CH[0..3]`: 360, 370, ..., 1680. -/
  stepping : ∀ k : Fin 4, 360 ≤ (sl.getCh (stepCh k)).toNat ∧ (sl.getCh (stepCh k)).toNat ≤ 1680 ∧
    (sl.getCh (stepCh k)).toNat % 10 = 0
  /-- `CH[5]`: 1000, 360 or 1680. -/
  snap : sl.getCh 5 = 1000#11 ∨ sl.getCh 5 = 360#11 ∨ sl.getCh 5 = 1680#11
  /-- `CH[4]` and `CH[6..15]`: 500, 1000 or 1500, the value of a legal switch position. -/
  swLegal : sl.SwLegal
  coupled : ∀ j, sl.Coupled j

/-! ### Runs -/

/-- `run 0` to `run n` are `n` steps of the machine, one after another. -/
abbrev IsRun (run : Nat → State) (n : Nat) : Prop :=
  ∀ i, i < n → step (run i) = .next (run (i + 1))

/-! ### Frames -/

/-- Nothing changes but the registers and what port `p` shows: the other ports, the requests still to come
on `p`, the slot order, the counter, the parameters and the turn. -/
structure OnlyPort (p : Port) (s t : State) : Prop where
  others : ∀ q, q ≠ p → t.port q = s.port q
  queue : (t.port p).queue = (s.port p).queue
  bus : t.bus = s.bus
  sched : t.sched = s.sched
  tick : t.tick = s.tick
  params : t.params = s.params

/-- The op of the turn is complete with result `r`, the registers are `sl`, and nothing else changed. -/
structure Completes (s t : State) (sl : Slots) (r : OpResult) : Prop where
  slots : t.slots = sl
  job : (t.port s.bus.port).job = none
  result : (t.port s.bus.port).result = some r
  frame : OnlyPort s.bus.port s t

/-- No other agent's slot events fall between those of the op of the turn (R66): ops are atomic, or the
burst of the turn is whole, whatever order it picks the op's own events in. -/
abbrev State.Undisturbed (s : State) : Prop :=
  s.params.atomicOps = true ∨ s.bus.burst.whole = true

/-- The number of slot events the ops in progress still have before them, at most. -/
def State.pendingWeight (s : State) : Nat :=
  ([Port.map, .tx, .rx, .host].map fun p =>
    match (s.port p).job with
    | none => 0
    | some j => j.weight + 1).sum

end Sys2Proof.Machine
end

