-- ==== Sys2Proof/Certificates/Slice0/Obligations.lean ====
section
/-! DEFINITION. The statements about the model, each formalising rules of spec/. -/

open Sys2Proof Sys2Proof.Machine

/-! ### Reset -/

/-- R35, R260: after reset every register holds the value of the table, and no op is in progress. -/
def Obligations.ResetLeavesTheTableValues : Prop :=
  (∀ k : Fin 16, State.reset.slots.getCh k =
      if k.val < 4 ∨ k.val = 5 then 1000#11 else 500#11) ∧
    (∀ j : Fin 11, State.reset.slots.getSw j = 1#2) ∧
    (∀ m : Fin 12, State.reset.slots.getLatch m = false) ∧
    ∀ p : Port, (State.reset.port p).job = none

/-- R260, R262, R261: the hardware reset gives the registers the values of R35, `LATCH` among them, and
abandons every op in progress without a result. That it is one step, an entry of the slot order, is the model's
choice (log 8). -/
def Obligations.HardwareResetAbandonsOps : Prop :=
  ∀ (s : State) (rest : List Move), s.Inv → s.sched = .reset :: rest →
    ∃ t, step s = .next t ∧
      (∀ k : Fin 16, t.slots.getCh k = if k.val < 4 ∨ k.val = 5 then 1000#11 else 500#11) ∧
      (∀ j : Fin 11, t.slots.getSw j = 1#2) ∧
      (∀ m : Fin 12, t.slots.getLatch m = false) ∧
      (∀ p : Port, (t.port p).job = none) ∧
      ∀ p : Port, (s.port p).job.isSome = true → (t.port p).result = none

/-! ### Channel Store -/

/-- R120: `NOP` returns `OK` on every port and changes nothing else. -/
def Obligations.NopReturnsOkAndChangesNothing : Prop :=
  ∀ s : State, ∃ t, exec .nop s = .next t ∧ Completes s t s.slots .ok

/-- R121: `GET idx` returns `OK` and the value of `CH[idx]`, and changes no register. -/
def Obligations.GetReturnsTheChannelValue : Prop :=
  ∀ (idx : Fin 16) (s : State), s.bus.port = .host → s.Undisturbed →
    ∃ t, exec (.get idx) s = .next t ∧ Completes s t s.slots (.okValue (s.slots.getCh idx))

/-- R122: `SET idx, val` stores `val` as it is in `CH[idx]` and changes no other slot: not the Switch State
slot of a discrete channel, not a latch. -/
def Obligations.SetWritesOneChannelOnly : Prop :=
  ∀ (idx : Fin 16) (val : Chan) (s : State), s.bus.port = .host → s.Undisturbed →
    ∃ t, exec (.set idx val) s = .next t ∧ Completes s t t.slots .ok ∧
      t.slots.getCh idx = val ∧
      (∀ k, k ≠ idx → t.slots.getCh k = s.slots.getCh k) ∧
      (∀ j, t.slots.getSw j = s.slots.getSw j) ∧
      ∀ m, t.slots.getLatch m = s.slots.getLatch m

/-- R123, R124, R261: `RSTN` restores all of `CH` and `SW` and leaves `LATCH`. -/
def Obligations.RstnRestoresNeutralAndKeepsLatches : Prop :=
  ∀ s : State, s.bus.port = .host → s.Undisturbed →
    ∃ t, exec .rstn s = .next t ∧ Completes s t t.slots .ok ∧
      (∀ k : Fin 16, t.slots.getCh k = if k.val < 4 ∨ k.val = 5 then 1000#11 else 500#11) ∧
      (∀ j : Fin 11, t.slots.getSw j = 1#2) ∧
      ∀ m, t.slots.getLatch m = s.slots.getLatch m

/-- R62, R67: however far `RSTN` has got, every `CH` and `SW` slot holds its old or its neutral value, and
no latch has changed. -/
def Obligations.RstnInProgressIsPartlyRestored : Prop :=
  ∀ s t : State, exec .rstn s = .next t →
    (∀ k : Fin 16, t.slots.getCh k = s.slots.getCh k ∨
      t.slots.getCh k = if k.val < 4 ∨ k.val = 5 then 1000#11 else 500#11) ∧
    (∀ j : Fin 11, t.slots.getSw j = s.slots.getSw j ∨ t.slots.getSw j = 1#2) ∧
    ∀ m, t.slots.getLatch m = s.slots.getLatch m

/-- R58: doing `SET` or `RSTN` twice in a row leaves the registers of doing it once. -/
def Obligations.SetAndRstnAreIdempotent : Prop :=
  ∀ (i : Instr) (s t u : State), (i = .rstn ∨ ∃ idx val, i = .set idx val) → s.Undisturbed →
    exec i s = .next t → exec i t = .next u → u.slots = t.slots

/-- R58, R71: `NOP`, `GET`, `ENC` and `DEC` write no register, on any port and for any part of the op. -/
def Obligations.ReadingOpsWriteNoRegister : Prop :=
  ∀ (i : Instr) (s t : State),
    (i = .nop ∨ (∃ idx, i = .get idx) ∨ i = .enc ∨ ∃ len, i = .dec len) →
    exec i s = .next t → t.slots = s.slots

/-! ### Input Mapper -/

/-- R140, R147, R62: a `POLL` with no other agent's slot events between its own leaves the registers of the
tick of R147, whatever order its events occur in. -/
def Obligations.PollIsOneTick : Prop :=
  ∀ (keys : BitVec 22) (s : State), s.bus.port = .map → s.Undisturbed →
    ∃ t, exec (.poll keys) s = .next t ∧
      Completes s t (s.slots.pollTick s.params.resetOrder keys) .ok

/-- R142, R153(a): what a tick in which the reset does not fire does to a stepping channel. The equation is
over natural numbers, so no step wraps. -/
def Obligations.StepIsGuardedByTheBounds : Prop :=
  ∀ (sl : Slots) (order : ResetOrder) (keys : BitVec 22) (k : Fin 4), sl.fires keys .rst = false →
    ((sl.pollTick order keys).getCh (stepCh k)).toNat =
      let v := (sl.getCh (stepCh k)).toNat
      if keys.getLsbD (2 * k.val) then (if v < 1680 then v + 10 else v)
      else if keys.getLsbD (2 * k.val + 1) then (if v > 360 then v - 10 else v)
      else v

/-- R142(d), R277: by stepping, a channel rises at most to 1689 and falls at least to 351. -/
def Obligations.StepOvershootIsBounded : Prop :=
  ∀ (sl : Slots) (order : ResetOrder) (keys : BitVec 22) (k : Fin 4), sl.fires keys .rst = false →
    ((sl.pollTick order keys).getCh (stepCh k)).toNat ≤ max (sl.getCh (stepCh k)).toNat 1689 ∧
      min (sl.getCh (stepCh k)).toNat 351 ≤ ((sl.pollTick order keys).getCh (stepCh k)).toNat

/-- R143: what a tick in which the reset does not fire does to channel 6. -/
def Obligations.SnapSetsChannelSix : Prop :=
  ∀ (sl : Slots) (order : ResetOrder) (keys : BitVec 22), sl.fires keys .rst = false →
    (sl.pollTick order keys).getCh 5 =
      if keys.getLsbD 8 then 1680#11 else if keys.getLsbD 9 then 360#11 else sl.getCh 5

/-- R144, R146(a): after a tick every latch is the level its key was sampled at, also when the reset fires. -/
def Obligations.LatchIsTheSampledLevel : Prop :=
  ∀ (sl : Slots) (order : ResetOrder) (keys : BitVec 22),
    (∀ j : Fin 11, (sl.pollTick order keys).getLatch ⟨j.val, by omega⟩ = keys.getLsbD (10 + j.val)) ∧
      (sl.pollTick order keys).getLatch 11 = keys.getLsbD 21

/-- R145: a press edge advances the switch position and sets the channel to the value of the new position;
without a press edge neither changes. The reset key is the one exception, in a tick in which it fires: with
`P_RESET_ORDER = last` both end neutral, with `first` the key acts from the neutral values (R146, R150). -/
def Obligations.ToggleAdvancesOnPressEdge : Prop :=
  ∀ (sl : Slots) (order : ResetOrder) (keys : BitVec 22) (j : Fin 11),
    let sl' := sl.pollTick order keys
    let ch : Fin 16 := if j.val = 0 then 4 else ⟨j.val + 5, by omega⟩
    let before := if sl.fires keys .rst = true ∧ order = .first then sl.resetToNeutral else sl
    if sl.fires keys .rst = true ∧ order = .last then
      sl'.getSw j = 1#2 ∧ sl'.getCh ch = 500#11
    else if keys.getLsbD (10 + j.val) = true ∧ sl.getLatch ⟨j.val, by omega⟩ = false then
      (sl'.getSw j).toNat = (before.getSw j).toNat % 3 + 1 ∧
        sl'.getCh ch =
          if (sl'.getSw j).toNat = 1 then 500#11
          else if (sl'.getSw j).toNat = 2 then 1000#11 else 1500#11
    else sl'.getSw j = before.getSw j ∧ sl'.getCh ch = before.getCh ch

/-- R146, R150, R151(d): with `P_RESET_ORDER = last` a tick in which the reset fires ends in the neutral
configuration, whatever other keys are held. -/
def Obligations.ResetKeyLastEndsNeutral : Prop :=
  ∀ (sl : Slots) (keys : BitVec 22), keys.getLsbD 21 = true → sl.getLatch 11 = false →
    (∀ k : Fin 16, (sl.pollTick .last keys).getCh k =
      if k.val < 4 ∨ k.val = 5 then 1000#11 else 500#11) ∧
    ∀ j : Fin 11, (sl.pollTick .last keys).getSw j = 1#2

/-- R150: with `P_RESET_ORDER = first` the held level keys act from the neutral values and the toggle keys
with a press edge advance from position 1. -/
def Obligations.ResetKeyFirstActsFromNeutral : Prop :=
  ∀ (sl : Slots) (keys : BitVec 22), keys.getLsbD 21 = true → sl.getLatch 11 = false →
    let sl' := sl.pollTick .first keys
    (∀ k : Fin 4, sl'.getCh (stepCh k) =
      if keys.getLsbD (2 * k.val) then 1010#11
      else if keys.getLsbD (2 * k.val + 1) then 990#11 else 1000#11) ∧
    sl'.getCh 5 = (if keys.getLsbD 8 then 1680#11 else if keys.getLsbD 9 then 360#11 else 1000#11) ∧
    ∀ j : Fin 11,
      if keys.getLsbD (10 + j.val) = true ∧ sl.getLatch ⟨j.val, by omega⟩ = false then
        sl'.getSw j = 2#2 ∧ sl'.getCh (swch j) = 1000#11
      else sl'.getSw j = 1#2 ∧ sl'.getCh (swch j) = 500#11

/-- R146: while the reset key stays held after its edge the tick leaves every register as with the key
up, but for its own latch, which stays set. -/
def Obligations.HeldResetKeyHasNoEffect : Prop :=
  ∀ (sl : Slots) (order : ResetOrder) (keys : BitVec 22),
    keys.getLsbD 21 = true → sl.getLatch 11 = true →
    let held := sl.pollTick order keys
    let up := sl.pollTick order (keys &&& ~~~BitVec.twoPow 22 21)
    (∀ k, held.getCh k = up.getCh k) ∧ (∀ j, held.getSw j = up.getSw j) ∧
      (∀ m, m ≠ 11 → held.getLatch m = up.getLatch m) ∧ held.getLatch 11 = true

/-- R150: the two settings of `P_RESET_ORDER` differ only on a tick where the reset fires and at least one
other key is held. -/
def Obligations.ResetOrdersAgreeWithoutOtherKeys : Prop :=
  ∀ (sl : Slots) (keys : BitVec 22), (sl.fires keys .rst = false ∨ keys = BitVec.twoPow 22 21) →
    sl.pollTick .first keys = sl.pollTick .last keys

/-- R151(a): a toggle key held over one or more consecutive polls, with its latch clear before the first
and the reset key up, makes exactly one transition, whatever the other keys do. -/
def Obligations.HeldToggleAdvancesOnce : Prop :=
  ∀ (sl : Slots) (order : ResetOrder) (samples : List (BitVec 22)) (j : Fin 11), samples ≠ [] →
    (∀ keys ∈ samples, keys.getLsbD (10 + j.val) = true ∧ keys.getLsbD 21 = false) →
    sl.getLatch ⟨j.val, by omega⟩ = false →
    let sl' := samples.foldl (fun sl keys => sl.pollTick order keys) sl
    (sl'.getSw j).toNat = (sl.getSw j).toNat % 3 + 1 ∧ sl'.Coupled j

/-- R151(b): pressing and releasing a toggle key `n + 1` times from a legal position cycles through the
positions 1, 2, 3, with the channel at the value of the position. -/
def Obligations.PressesCycleThroughThreePositions : Prop :=
  ∀ (sl : Slots) (order : ResetOrder) (j : Fin 11) (n : Nat),
    sl.getSw j ≠ 0#2 → sl.getLatch ⟨j.val, by omega⟩ = false →
    let press (sl : Slots) := (sl.pollTick order (BitVec.twoPow 22 (10 + j.val))).pollTick order 0#22
    let sl' := press^[n + 1] sl
    (sl'.getSw j).toNat = ((sl.getSw j).toNat - 1 + (n + 1)) % 3 + 1 ∧ sl'.Coupled j

/-- R28: a press edge restores the coupling of its slot and channel whatever the channel held before, and
the neutral configuration is coupled. -/
def Obligations.CouplingIsRestored : Prop :=
  (∀ (sl : Slots) (order : ResetOrder) (keys : BitVec 22) (j : Fin 11),
    sl.fires keys .rst = false → sl.fires keys (.tog j) = true →
      (sl.pollTick order keys).Coupled j) ∧
  (∀ (sl : Slots) (j : Fin 11), sl.resetToNeutral.Coupled j) ∧
  ∀ j : Fin 11, Slots.reset.Coupled j

/-- R152, R151(c): the values reachable from reset by `POLL` alone are kept by every tick, under both
settings of `P_RESET_ORDER`, and hold at reset. -/
def Obligations.PollKeepsItsReachableValues : Prop :=
  Slots.reset.PollReachable ∧
    ∀ (sl : Slots) (order : ResetOrder) (keys : BitVec 22), sl.PollReachable →
      (sl.pollTick order keys).PollReachable

/-- R264, U13: a toggle key already held at the first `POLL` after reset fires on that `POLL`, and so does
the reset key, whose reset is then redundant: alone it changes nothing but its latch. -/
def Obligations.KeyHeldAtResetFires : Prop :=
  (∀ (order : ResetOrder) (keys : BitVec 22) (j : Fin 11),
    keys.getLsbD (10 + j.val) = true → keys.getLsbD 21 = false →
      (Slots.reset.pollTick order keys).getSw j = 2#2 ∧
        (Slots.reset.pollTick order keys).getCh (swch j) = 1000#11) ∧
  (∀ keys : BitVec 22, keys.getLsbD 21 = true → Slots.reset.fires keys .rst = true) ∧
  ∀ order : ResetOrder,
    Slots.reset.pollTick order (BitVec.twoPow 22 21) = Slots.reset.setLatch 11 true

/-! ### Frame Encoder -/

/-- R170: `ENC` returns `OK` and the frame of the store, and writes no register. -/
def Obligations.EncReturnsTheFrameOfTheStore : Prop :=
  ∀ s : State, s.bus.port = .tx → s.Undisturbed →
    ∃ t, exec .enc s = .next t ∧ Completes s t s.slots (.okFrame (pack s.slots.ch))

/-- R52: stream bit `n` is bit `n mod 11` of channel index `n div 11`, in frame byte `1 + (n div 8)` at bit
position `n mod 8`. -/
def Obligations.StreamBitsStandWhereTheRulePutsThem : Prop :=
  ∀ (t : Vector Chan 16) (n : Nat) (h : n < 176),
    ((pack t)[1 + n / 8]'(by omega)).getLsbD (n % 8) = (t[n / 11]'(by omega)).getLsbD (n % 11)

/-- R82: the 22 expressions of the payload bytes. -/
def Obligations.PayloadBytesAreTheMaskedShifts : Prop :=
  ∀ t : Vector Chan 16,
    let c (k : Fin 16) : Nat := t[k].toNat
    let f (i : Fin 25) : Nat := (pack t)[i].toNat
    f 1 = (c 0 &&& 0xFF) ∧
    f 2 = (c 0 >>> 8 &&& 0x07) ||| (c 1 <<< 3 &&& 0xF8) ∧
    f 3 = (c 1 >>> 5 &&& 0x3F) ||| (c 2 <<< 6 &&& 0xC0) ∧
    f 4 = (c 2 >>> 2 &&& 0xFF) ∧
    f 5 = (c 2 >>> 10 &&& 0x01) ||| (c 3 <<< 1 &&& 0xFE) ∧
    f 6 = (c 3 >>> 7 &&& 0x0F) ||| (c 4 <<< 4 &&& 0xF0) ∧
    f 7 = (c 4 >>> 4 &&& 0x7F) ||| (c 5 <<< 7 &&& 0x80) ∧
    f 8 = (c 5 >>> 1 &&& 0xFF) ∧
    f 9 = (c 5 >>> 9 &&& 0x03) ||| (c 6 <<< 2 &&& 0xFC) ∧
    f 10 = (c 6 >>> 6 &&& 0x1F) ||| (c 7 <<< 5 &&& 0xE0) ∧
    f 11 = (c 7 >>> 3 &&& 0xFF) ∧
    f 12 = (c 8 &&& 0xFF) ∧
    f 13 = (c 8 >>> 8 &&& 0x07) ||| (c 9 <<< 3 &&& 0xF8) ∧
    f 14 = (c 9 >>> 5 &&& 0x3F) ||| (c 10 <<< 6 &&& 0xC0) ∧
    f 15 = (c 10 >>> 2 &&& 0xFF) ∧
    f 16 = (c 10 >>> 10 &&& 0x01) ||| (c 11 <<< 1 &&& 0xFE) ∧
    f 17 = (c 11 >>> 7 &&& 0x0F) ||| (c 12 <<< 4 &&& 0xF0) ∧
    f 18 = (c 12 >>> 4 &&& 0x7F) ||| (c 13 <<< 7 &&& 0x80) ∧
    f 19 = (c 13 >>> 1 &&& 0xFF) ∧
    f 20 = (c 13 >>> 9 &&& 0x03) ||| (c 14 <<< 2 &&& 0xFC) ∧
    f 21 = (c 14 >>> 6 &&& 0x1F) ||| (c 15 <<< 5 &&& 0xE0) ∧
    f 22 = (c 15 >>> 3 &&& 0xFF)

/-- R172: `pack` is injective, and its image is exactly the sequences with the three constant bytes. -/
def Obligations.PackIsInjectiveOntoTheFrames : Prop :=
  Function.Injective pack ∧
    ∀ f : Vector Byte 25, (∃ t, pack t = f) ↔ (f[0] = 0x0F#8 ∧ f[23] = 0x00#8 ∧ f[24] = 0x00#8)

/-- R173: vectors that differ only at channel `k` give frames that agree on every bit outside stream bits
`11k` to `11k+10`. -/
def Obligations.ChangingOneChannelChangesOnlyItsBits : Prop :=
  ∀ (t t' : Vector Chan 16) (k : Fin 16), (∀ i : Fin 16, i ≠ k → t[i] = t'[i]) →
    (pack t)[0] = (pack t')[0] ∧ (pack t)[23] = (pack t')[23] ∧ (pack t)[24] = (pack t')[24] ∧
    ∀ (n : Nat) (h : n < 176), ¬(11 * k.val ≤ n ∧ n ≤ 11 * k.val + 10) →
      ((pack t)[1 + n / 8]'(by omega)).getLsbD (n % 8) =
        ((pack t')[1 + n / 8]'(by omega)).getLsbD (n % 8)

/-! ### Frame Decoder -/

/-- R232, R196: `DEC` with fewer than 25 bytes returns `SHORT`, no values, and changes nothing. -/
def Obligations.DecOfAShortBufferReturnsShort : Prop :=
  ∀ (len : BitVec 8) (s : State), s.bus.port = .rx → len.toNat < 25 →
    ∃ t, exec (.dec len) s = .next t ∧ Completes s t s.slots .short

/-- R232, R230: the status `SHORT` comes from a `DEC` of fewer than 25 bytes and from nothing else: so of the
ops, and so of every step. A `SHORT` that stands on a port after a step stood there before it, with no request
taken (log 4), or the step took from RX's agent a word of such a `DEC`. -/
def Obligations.ShortMeansAShortDec : Prop :=
  (∀ (i : Instr) (s t : State) (r : OpResult), exec i s = .next t →
    (t.port s.bus.port).result = some r →
    (r.status = .short ↔ ∃ len : BitVec 8, i = .dec len ∧ s.bus.port = .rx ∧ len.toNat < 25)) ∧
  ∀ (s t : State) (p : Port) (r : OpResult), step s = .next t →
    (t.port p).result = some r → r.status = .short →
    ((s.port p).result = some r ∧ (t.port p).queue = (s.port p).queue) ∨
      (p = .rx ∧ ∃ (request : Request) (len : BitVec 8),
        (s.port p).queue = request :: (t.port p).queue ∧
          decode request.cw = .ok (.dec len) ∧ len.toNat < 25)

/-- R190, R192, R235: `DEC` with 25 bytes or more returns `OK` and 12 values, of any bytes whatever: value
`k` is bits `11k` to `11k+10` of the bytes from `BUF[1]` on. -/
def Obligations.DecReturnsTwelvePositionalValues : Prop :=
  ∀ (len : BitVec 8) (s : State), s.bus.port = .rx → 25 ≤ len.toNat →
    ∃ t d, exec (.dec len) s = .next t ∧ Completes s t s.slots (.okDecoded d) ∧
      ∀ (k : Fin 12) (i : Fin 11), (d[k]).getLsbD i.val =
        (s.bus.buf[1 + (11 * k.val + i.val) / 8]'(by omega)).getLsbD ((11 * k.val + i.val) % 8)

/-- R85, R191: the twelve expressions of the extracted fields. -/
def Obligations.ExtractedFieldsAreTheShiftedBytes : Prop :=
  ∀ buf : Buf,
    let b (i : Fin 255) : Nat := buf[i].toNat
    let d (k : Fin 12) : Nat := (unpack buf k).toNat
    d 0 = (b 1 ||| b 2 <<< 8) &&& 0x07FF ∧
    d 1 = (b 2 >>> 3 ||| b 3 <<< 5) &&& 0x07FF ∧
    d 2 = (b 3 >>> 6 ||| b 4 <<< 2 ||| b 5 <<< 10) &&& 0x07FF ∧
    d 3 = (b 5 >>> 1 ||| b 6 <<< 7) &&& 0x07FF ∧
    d 4 = (b 6 >>> 4 ||| b 7 <<< 4) &&& 0x07FF ∧
    d 5 = (b 7 >>> 7 ||| b 8 <<< 1 ||| b 9 <<< 9) &&& 0x07FF ∧
    d 6 = (b 9 >>> 2 ||| b 10 <<< 6) &&& 0x07FF ∧
    d 7 = (b 10 >>> 5 ||| b 11 <<< 3) &&& 0x07FF ∧
    d 8 = (b 12 ||| b 13 <<< 8) &&& 0x07FF ∧
    d 9 = (b 13 >>> 3 ||| b 14 <<< 5) &&& 0x07FF ∧
    d 10 = (b 14 >>> 6 ||| b 15 <<< 2 ||| b 16 <<< 10) &&& 0x07FF ∧
    d 11 = (b 16 >>> 1 ||| b 17 <<< 7) &&& 0x07FF

/-- R71, R195, R190(b): on the RX port the result of `DEC` depends on nothing but whether `len` is at least
25, on `BUF[1]` to `BUF[16]` and on bits 3:0 of `BUF[17]`; in particular not on any register. -/
def Obligations.DecDependsOnItsPayloadBytesOnly : Prop :=
  ∀ (len len' : BitVec 8) (s s' t t' : State),
    s.bus.port = .rx → s'.bus.port = .rx → (len.toNat < 25 ↔ len'.toNat < 25) →
    (∀ i : Fin 255, 1 ≤ i.val → i.val ≤ 16 → s.bus.buf[i] = s'.bus.buf[i]) →
    s.bus.buf[17].extractLsb' 0 4 = s'.bus.buf[17].extractLsb' 0 4 →
    exec (.dec len) s = .next t → exec (.dec len') s' = .next t' →
    (t.port .rx).result = (t'.port .rx).result

/-- R193: decoding the frame of `v` gives the first 12 values of `v`; with whatever bytes after the frame. -/
def Obligations.DecodingAnEncodedFrameReturnsTheChannels : Prop :=
  ∀ (v : Vector Chan 16) (len : BitVec 8) (s : State), s.bus.port = .rx → 25 ≤ len.toNat →
    (∀ i : Fin 25, s.bus.buf[i.val] = (pack v)[i]) →
    ∃ t d, exec (.dec len) s = .next t ∧ Completes s t s.slots (.okDecoded d) ∧
      ∀ k : Fin 12, d[k] = v[k.val]

/-! ### Command words -/

/-- R96, R97: a word decodes to an op exactly when it matches that op's row of the opcode map; it never
matches two rows, and a word that matches none is rejected. -/
def Obligations.DecoderFollowsTheOpcodeMap : Prop :=
  ∀ w : Word, (opcodeRows.filter fun r => r.matches w).map OpcodeRow.mnemonic =
    match decode w with
    | .ok i => [i.mnemonic]
    | .error _ => []

/-- R91 to R98: every op is what its own command word decodes to, with every operand at every value. -/
def Obligations.DecodingAnEncodedOpReturnsIt : Prop :=
  ∀ i : Instr, decode (encode i) = .ok i

/-- R91 to R98: a legal word is the command word of the op it decodes to. -/
def Obligations.LegalWordIsTheWordOfItsOp : Prop :=
  ∀ (w : Word) (i : Instr), decode w = .ok i → encode i = w

/-- R102: the worked encodings and the illegal examples. -/
def Obligations.WorkedEncodingsDecode : Prop :=
  decode 0x00000000#32 = .ok .nop ∧
  decode 0x10000005#32 = .ok (.get 5) ∧
  decode 0x200025DC#32 = .ok (.set 4 1500#11) ∧
  decode 0x20007FFF#32 = .ok (.set 15 2047#11) ∧
  decode 0x30000000#32 = .ok .rstn ∧
  decode 0x40000000#32 = .ok (.poll 0#22) ∧
  decode 0x40000001#32 = .ok (.poll (keysOf [.inc1])) ∧
  decode 0x40200000#32 = .ok (.poll (keysOf [.rst])) ∧
  decode 0x403FFFFF#32 = .ok (.poll 0x3FFFFF#22) ∧
  decode 0x50000000#32 = .ok .enc ∧
  decode 0x60000019#32 = .ok (.dec 25#8) ∧
  decode 0x60000000#32 = .ok (.dec 0#8) ∧
  decode 0x600000FF#32 = .ok (.dec 255#8) ∧
  decode 0x70000000#32 = .error (.reservedOp 7#4) ∧
  decode 0x10000010#32 = .error (.zeroField 1#4) ∧
  decode 0x20008000#32 = .error (.zeroField 2#4) ∧
  decode 0x40400000#32 = .error (.zeroField 4#4) ∧
  decode 0x60000100#32 = .error (.zeroField 6#4) ∧
  decode 0x50000001#32 = .error (.zeroField 5#4)

/-- R101: the expansions of the pseudo-ops. R101 does not say what a channel number outside 1 to 16 expands to;
that it expands to nothing is the model's choice (log 14). -/
def Obligations.PseudoOpsExpandAsTheTable : Prop :=
  (∀ (n : Nat) (val : Chan) (h : 1 ≤ n ∧ n ≤ 16),
    Pseudo.expand (.setCh n val) = some [.set ⟨n - 1, by omega⟩ val] ∧
      Pseudo.expand (.getCh n) = some [.get ⟨n - 1, by omega⟩]) ∧
  (∀ (n : Nat) (val : Chan), ¬(1 ≤ n ∧ n ≤ 16) →
    Pseudo.expand (.setCh n val) = none ∧ Pseudo.expand (.getCh n) = none) ∧
  Pseudo.expand .snapshot = some [.get 0, .get 1, .get 2, .get 3, .get 4, .get 5, .get 6, .get 7,
    .get 8, .get 9, .get 10, .get 11, .get 12, .get 13, .get 14, .get 15] ∧
  (∀ (n : Nat) (keys : BitVec 22),
    Pseudo.expand (.tick n keys) = some (List.replicate n (.poll keys)) ∧
      Pseudo.expand (.press keys) = some [.poll keys, .poll 0#22]) ∧
  Pseudo.expand .release = some [.poll 0#22]

/-! ### Turns, ports and illegal commands -/

/-- A turn of a port with no op in progress takes the next request of its agent and runs the op its word decodes
to (R90). The model's choices: that the agent presents the request on that turn (log 6), and that the result
last returned on the port is dropped then (log 4). Of the registers, the other ports, the counter and the
parameters nothing changes before the op runs. -/
def Obligations.StepRunsTheDecodedOp : Prop :=
  ∀ (s : State) (p : Port) (b : Burst) (rest : List Move) (r : Request) (q : List Request) (i : Instr),
    s.sched = .act p b :: rest → (s.port p).job = none → (s.port p).queue = r :: q →
    decode r.cw = .ok i →
    ∃ s', step s = exec i s' ∧ s'.slots = s.slots ∧
      s'.bus = { port := p, buf := r.buf, burst := b } ∧ s'.sched = rest ∧
      s'.port p = { queue := q, job := none, result := none } ∧
      (∀ p', p' ≠ p → s'.port p' = s.port p') ∧ s'.tick = s.tick ∧ s'.params = s.params

/-- The model's own (log 11): a word placed for the next step is run by it, on a port that owns its op, with no
other agent's slot events between those of the op. -/
def Obligations.PlacedWordRunsAtTheNextStep : Prop :=
  ∀ (s : State) (i : Instr), ∃ s',
    step (s.withFetchWord 32 (encode i).toNat) = exec i s' ∧ s'.slots = s.slots ∧
      s'.params = s.params ∧ i.acceptedOn s'.bus.port = true ∧ s'.Undisturbed

/-- R97, R233, R238(a): an illegal word is answered `ILLEGAL`; no register changes and no other port. The turn
that presents it is the model's (logs 4 and 6). -/
def Obligations.IllegalWordIsAnsweredIllegal : Prop :=
  ∀ (s : State) (p : Port) (b : Burst) (rest : List Move) (r : Request) (q : List Request)
    (e : DecodeError),
    s.sched = .act p b :: rest → (s.port p).job = none → (s.port p).queue = r :: q →
    decode r.cw = .error e →
    ∃ t, step s = .next t ∧ t.slots = s.slots ∧
      t.port p = { queue := q, job := none, result := some .illegal } ∧
      (∀ p', p' ≠ p → t.port p' = s.port p') ∧ t.sched = rest ∧ t.params = s.params

/-- R97, R233, R241: an op on a port that does not own it is answered `ILLEGAL` and changes nothing. -/
def Obligations.WrongPortIsAnsweredIllegal : Prop :=
  ∀ (i : Instr) (s : State),
    (i ≠ .nop ∧ s.bus.port ≠ match i with
      | .nop => s.bus.port
      | .get _ => .host
      | .set _ _ => .host
      | .rstn => .host
      | .poll _ => .map
      | .enc => .tx
      | .dec _ => .rx) →
    ∃ t, exec i s = .next t ∧ Completes s t s.slots .illegal

/-- R230: the codes of the statuses; the code 3 is never returned. -/
def Obligations.StatusCodesAreThoseOfTheTable : Prop :=
  Status.code .ok = 0#2 ∧ Status.code .short = 1#2 ∧ Status.code .illegal = 2#2 ∧
    ∀ r : OpResult, r.status.code ≠ 3#2

/-- R241, R244: a turn of TX or RX writes no register, a turn of HOST no latch: `LATCH` is MAP's alone. Every
step is such a turn of some port, whether the slot order or the free choice (log 3) gives it, or a hardware
reset (log 8), or it changes nothing. -/
def Obligations.PortsWriteOnlyTheirRegisters : Prop :=
  (∀ (s t : State) (p : Port) (b : Burst), s.Inv → turn p b s = .next t →
    (p = .tx ∨ p = .rx → t.slots = s.slots) ∧
      (p = .host → ∀ m, t.slots.getLatch m = s.slots.getLatch m)) ∧
  ∀ s : State, step s = .next s ∨ (∃ rest, s.sched = .reset :: rest) ∨
    ∃ (p : Port) (b : Burst) (s' : State), step s = turn p b s' ∧
      s'.slots = s.slots ∧ s'.ports = s.ports ∧ s'.params = s.params

/-- R276, R236: from every state there is a next state: no fault, no refusal, no wait. -/
def Obligations.EveryStepAnswersANextState : Prop :=
  ∀ s : State, ∃ t, step s = .next t

/-- R20, R40, R70, R244: an op changes nothing but the registers and what its own port shows, however far it
gets: there is no other state it could change, it chooses no next op, and it reaches no other agent. -/
def Obligations.OpsTouchOnlyTheirPort : Prop :=
  ∀ (i : Instr) (s : State), ∃ t, exec i s = .next t ∧ OnlyPort s.bus.port s t

/-! ### Ordering between agents -/

/-- R66, R62, one op at a time: with `P_ATOMIC_OPS` an op does what it does without the parameter when no other
agent's slot events fall between its own, in whatever order these occur. -/
def Obligations.AtomicOpIsAnUndisturbedOp : Prop :=
  ∀ (i : Instr) (s : State), s.params.atomicOps = false → s.bus.burst.whole = true →
    ∃ t u, exec i s = .next t ∧
      exec i { s with params := { s.params with atomicOps := true } } = .next u ∧
      u = { t with params := { t.params with atomicOps := true } }

/-- R62: an op cut into two bursts with nothing in between does what it does in one. -/
def Obligations.CutOpGoesOnWhereItStopped : Prop :=
  ∀ (i : Instr) (s t u : State) (p₁ p₂ : List Nat) (w : Bool), s.params.atomicOps = false →
    exec i { s with bus := { s.bus with burst := { picks := p₁ ++ p₂, whole := w } } } = .next t →
    exec i { s with bus := { s.bus with burst := { picks := p₁, whole := false } } } = .next u →
    (u.advance s.bus.port { picks := p₂, whole := w }).slots = t.slots ∧
      (u.advance s.bus.port { picks := p₂, whole := w }).ports = t.ports

/-- R63: while a port has an op in progress its turns take no further request, and they change no other
port. That a turn of a busy port goes on with its op is the model's form of the rule (log 6). -/
def Obligations.OneOpAtATimePerPort : Prop :=
  ∀ (s t : State) (p : Port) (b : Burst) (rest : List Move), (s.port p).job.isSome = true →
    s.sched = .act p b :: rest → step s = .next t →
    (t.port p).queue = (s.port p).queue ∧ ∀ p', p' ≠ p → t.port p' = s.port p'

/-- R60, R65, U6. First, step by step: while an `ENC` is in progress each of its sampled values stays, or is in
this step read from the register as it stands; and the frame of an `ENC` that ends in this step is `pack` of
such values. Then, over the whole op, from the turn that takes the request to the turn that returns a frame:
the frame is `pack v` for a `v` each of whose values its channel register held, slot by slot and independently,
at a turn of TX in between. -/
def Obligations.SampledValuesComeFromTheStore : Prop :=
  (∀ (s t : State) (j : Job), s.Inv → (s.port .tx).job = some j → step s = .next t →
    (∀ j', (t.port .tx).job = some j' →
      j'.ret = j.ret ∧ ∀ k : Fin 16, j'.samples[k] = j.samples[k] ∨ j'.samples[k] = s.slots.getCh k) ∧
    ∀ f, (t.port .tx).result = some (.okFrame f) →
      ∃ v : Vector Chan 16, f = pack v ∧
        ∀ k : Fin 16, v[k] = j.samples[k] ∨ v[k] = s.slots.getCh k) ∧
  ∀ (run : Nat → State) (n : Nat) (request : Request) (f : Vector Byte 25), IsRun run (n + 1) →
    ((run 0).port .tx).queue = request :: ((run 1).port .tx).queue →
    (∀ i, 1 ≤ i → i ≤ n → ((run i).port .tx).job.isSome = true) →
    ((run (n + 1)).port .tx).result = some (.okFrame f) →
    ∃ v : Vector Chan 16, f = pack v ∧
      ∀ k : Fin 16, ∃ i, i ≤ n ∧ v[k] = (run i).slots.getCh k ∧
        (run (i + 1)).port .tx ≠ (run i).port .tx

/-- R65, R271, program P5: with `P_ATOMIC_OPS = false` both torn frames of a `POLL INC1+INC2` beside an `ENC`
occur. -/
def Obligations.TornFramesOccur : Prop :=
  let zeros : Buf := Vector.replicate 255 0#8
  let start (sched : List Move) : State :=
    { State.reset with
      sched := sched
      ports := { State.reset.ports with
        map := { queue := [{ cw := 0x40000005#32, buf := zeros }], job := none, result := none }
        tx := { queue := [{ cw := 0x50000000#32, buf := zeros }], job := none, result := none } } }
  let run (sched : List Move) := Host.Core.run Sys2Proof.core 3 (start sched)
  (∃ t : State, run [.act .map ⟨[0, 0], false⟩, .act .tx ⟨[], true⟩, .act .map ⟨[], true⟩] = .next t ∧
    ∃ f, (t.port .tx).result = some (.okFrame f) ∧
      f[1] = 0xF2#8 ∧ f[2] = 0x43#8 ∧ f[3] = 0x1F#8 ∧ f[4] = 0xFA#8) ∧
  ∃ t : State, run [.act .tx ⟨[0], false⟩, .act .map ⟨[], true⟩, .act .tx ⟨[], true⟩] = .next t ∧
    ∃ f, (t.port .tx).result = some (.okFrame f) ∧
      f[1] = 0xE8#8 ∧ f[2] = 0x93#8 ∧ f[3] = 0x1F#8 ∧ f[4] = 0xFA#8

/-- R64, program P6: with `P_ATOMIC_OPS = false` the three outcomes of a `POLL INC1` beside a `SET 0, 500` all
occur, the lost `SET` among them. -/
def Obligations.LostUpdatesOccur : Prop :=
  let zeros : Buf := Vector.replicate 255 0#8
  let start (sched : List Move) : State :=
    { State.reset with
      sched := sched
      ports := { State.reset.ports with
        map := { queue := [{ cw := 0x40000001#32, buf := zeros }], job := none, result := none }
        host := { queue := [{ cw := 0x200001F4#32, buf := zeros }], job := none, result := none } } }
  let ends (sched : List Move) (v : Chan) : Prop :=
    ∃ t : State, Host.Core.run Sys2Proof.core 3 (start sched) = .next t ∧ t.slots.getCh 0 = v
  ends [.act .host ⟨[], true⟩, .act .map ⟨[], true⟩] 510#11 ∧
  ends [.act .map ⟨[], true⟩, .act .host ⟨[], true⟩] 500#11 ∧
  ends [.act .map ⟨[0], false⟩, .act .host ⟨[], true⟩, .act .map ⟨[], true⟩] 1010#11

/-- The model's choice (log 3): where no slot order is laid down, which R61 and R238(c) leave open, some port with
something to do has the turn, for one of its slot events; it is never the hardware reset (log 8). A block with
nothing to do keeps its whole state (R248). -/
def Obligations.FreeTurnGoesToAPendingPort : Prop :=
  ∀ s : State, s.sched = [] →
    (s.pendingPorts = [] → step s = .next s) ∧
    (s.pendingPorts ≠ [] → ∃ p ∈ s.pendingPorts, ∃ n,
      step s = turn p { picks := [n], whole := false } { s with tick := s.tick + 2 })

/-! ### Invariants -/

/-- The machine is in a legal state after reset. -/
def Obligations.ResetStateIsLegal : Prop := State.reset.Inv

/-- R27, R66, R241, R262: every step keeps the legal states: `SW` is 1, 2 or 3, no op in progress is about to
put anything else there, each op in progress touches only what its port may, with `P_ATOMIC_OPS` none is in
progress, and none has returned its result early. -/
def Obligations.EveryStepKeepsLegalStates : Prop :=
  ∀ s t : State, s.Inv → step s = .next t → t.Inv

/-- The model's own reading (log 1, DEDUCED): R9 leaves the parameters open, and in the model no step changes
them. -/
def Obligations.NoStepChangesTheParameters : Prop :=
  ∀ s t : State, step s = .next t → t.params = s.params

/-- The model's choice (log 3: a free turn goes to a port with something to do; log 8: the hardware reset is no
free turn): with no slot order laid down, every step of a machine with something to do takes a request or brings
the ops in progress closer to their ends. R276 says of the block only that no op waits for another agent. -/
def Obligations.EveryFreeStepMakesProgress : Prop :=
  ∀ s t : State, s.sched = [] → s.pendingPorts ≠ [] → step s = .next t →
    let queued (u : State) : Nat :=
      ([Port.map, .tx, .rx, .host].map fun p => (u.port p).queue.length).sum
    queued t < queued s ∨ (queued t = queued s ∧ t.pendingWeight < s.pendingWeight)

/-- The model's choice (log 3: free turns go to ports with something to do only; log 4: every queued request is
issued; log 8: no hardware reset comes by the free choice): whatever the free choices are, the machine runs
until every requested op has completed. D22 puts no such assumption on the agents; R276 says that an op, once
issued, can complete. -/
def Obligations.EveryRequestedOpCompletes : Prop :=
  ∀ s : State, s.sched = [] → ∃ (n : Nat) (t : State),
    Host.Core.run Sys2Proof.core n s = .next t ∧ t.pendingPorts = []
end

