-- ==== Sys2Proof/Laws/State.lean ====
section
/-! SUPPORT. One lemma per field and update: slots, ports, and the record updates of the state. -/

namespace Sys2Proof.Machine

/-! ### Slots: read after write -/

@[simp] theorem Slots.getCh_setCh_self (sl : Slots) (k : Fin 16) (v : Chan) :
    (sl.setCh k v).getCh k = v := by simp [Slots.getCh, Slots.setCh]

theorem Slots.getCh_setCh (sl : Slots) (k k' : Fin 16) (v : Chan) :
    (sl.setCh k v).getCh k' = if k' = k then v else sl.getCh k' := by
  simp only [Slots.getCh, Slots.setCh, Fin.getElem_fin, Vector.getElem_set, Fin.ext_iff, eq_comm]

@[simp] theorem Slots.getCh_setCh_ne (sl : Slots) {k k' : Fin 16} (h : k' ≠ k) (v : Chan) :
    (sl.setCh k v).getCh k' = sl.getCh k' := by simp [Slots.getCh_setCh, h]

@[simp] theorem Slots.getCh_setSw (sl : Slots) (j : Fin 11) (p : Pos) (k : Fin 16) :
    (sl.setSw j p).getCh k = sl.getCh k := rfl

@[simp] theorem Slots.getCh_setLatch (sl : Slots) (m : Fin 12) (b : Bool) (k : Fin 16) :
    (sl.setLatch m b).getCh k = sl.getCh k := rfl

@[simp] theorem Slots.getSw_setSw_self (sl : Slots) (j : Fin 11) (p : Pos) :
    (sl.setSw j p).getSw j = p := by simp [Slots.getSw, Slots.setSw]

theorem Slots.getSw_setSw (sl : Slots) (j j' : Fin 11) (p : Pos) :
    (sl.setSw j p).getSw j' = if j' = j then p else sl.getSw j' := by
  simp only [Slots.getSw, Slots.setSw, Fin.getElem_fin, Vector.getElem_set, Fin.ext_iff, eq_comm]

@[simp] theorem Slots.getSw_setSw_ne (sl : Slots) {j j' : Fin 11} (h : j' ≠ j) (p : Pos) :
    (sl.setSw j p).getSw j' = sl.getSw j' := by simp [Slots.getSw_setSw, h]

@[simp] theorem Slots.getSw_setCh (sl : Slots) (k : Fin 16) (v : Chan) (j : Fin 11) :
    (sl.setCh k v).getSw j = sl.getSw j := rfl

@[simp] theorem Slots.getSw_setLatch (sl : Slots) (m : Fin 12) (b : Bool) (j : Fin 11) :
    (sl.setLatch m b).getSw j = sl.getSw j := rfl

@[simp] theorem Slots.getLatch_setLatch_self (sl : Slots) (m : Fin 12) (b : Bool) :
    (sl.setLatch m b).getLatch m = b := by simp [Slots.getLatch, Slots.setLatch]

theorem Slots.getLatch_setLatch (sl : Slots) (m m' : Fin 12) (b : Bool) :
    (sl.setLatch m b).getLatch m' = if m' = m then b else sl.getLatch m' := by
  simp only [Slots.getLatch, Slots.setLatch, Fin.getElem_fin, Vector.getElem_set, Fin.ext_iff, eq_comm]

@[simp] theorem Slots.getLatch_setLatch_ne (sl : Slots) {m m' : Fin 12} (h : m' ≠ m) (b : Bool) :
    (sl.setLatch m b).getLatch m' = sl.getLatch m' := by simp [Slots.getLatch_setLatch, h]

@[simp] theorem Slots.getLatch_setCh (sl : Slots) (k : Fin 16) (v : Chan) (m : Fin 12) :
    (sl.setCh k v).getLatch m = sl.getLatch m := rfl

@[simp] theorem Slots.getLatch_setSw (sl : Slots) (j : Fin 11) (p : Pos) (m : Fin 12) :
    (sl.setSw j p).getLatch m = sl.getLatch m := rfl

@[simp] theorem Slots.getCh_resetToNeutral (sl : Slots) (k : Fin 16) :
    sl.resetToNeutral.getCh k = neutral[k] := rfl

@[simp] theorem Slots.getSw_resetToNeutral (sl : Slots) (j : Fin 11) :
    sl.resetToNeutral.getSw j = swNeutral := by simp [Slots.getSw, Slots.resetToNeutral]

@[simp] theorem Slots.getLatch_resetToNeutral (sl : Slots) (m : Fin 12) :
    sl.resetToNeutral.getLatch m = sl.getLatch m := rfl

/-- Two register files are equal when every slot reads the same. -/
theorem Slots.eq_of_reads {a b : Slots} (hc : ∀ k, a.getCh k = b.getCh k)
    (hs : ∀ j, a.getSw j = b.getSw j) (hl : ∀ m, a.getLatch m = b.getLatch m) : a = b := by
  cases a; cases b
  simp only [Slots.mk.injEq]
  exact ⟨Vector.ext fun i h => hc ⟨i, h⟩, Vector.ext fun i h => hs ⟨i, h⟩,
    Vector.ext fun i h => hl ⟨i, h⟩⟩

/-! ### Ports -/

@[simp] theorem Ports.get_set_self (ps : Ports) (p : Port) (q : PortState) :
    (ps.set p q).get p = q := by cases p <;> rfl

@[simp] theorem Ports.get_set_ne (ps : Ports) {p p' : Port} (h : p' ≠ p) (q : PortState) :
    (ps.set p q).get p' = ps.get p' := by
  cases p <;> cases p' <;> first | rfl | exact absurd rfl h

@[simp] theorem Ports.set_set (ps : Ports) (p : Port) (q q' : PortState) :
    (ps.set p q).set p q' = ps.set p q' := by cases p <;> rfl

@[simp] theorem State.port_setPort_self (s : State) (p : Port) (q : PortState) :
    (s.setPort p q).port p = q := Ports.get_set_self _ _ _

@[simp] theorem State.port_setPort_ne (s : State) {p p' : Port} (h : p' ≠ p) (q : PortState) :
    (s.setPort p q).port p' = s.port p' := Ports.get_set_ne _ h _

@[simp] theorem State.setPort_slots (s : State) (p : Port) (q : PortState) :
    (s.setPort p q).slots = s.slots := rfl

@[simp] theorem State.setPort_bus (s : State) (p : Port) (q : PortState) :
    (s.setPort p q).bus = s.bus := rfl

@[simp] theorem State.setPort_sched (s : State) (p : Port) (q : PortState) :
    (s.setPort p q).sched = s.sched := rfl

@[simp] theorem State.setPort_tick (s : State) (p : Port) (q : PortState) :
    (s.setPort p q).tick = s.tick := rfl

@[simp] theorem State.setPort_params (s : State) (p : Port) (q : PortState) :
    (s.setPort p q).params = s.params := rfl

@[simp] theorem State.port_withSlots (s : State) (sl : Slots) (p : Port) :
    ({ s with slots := sl } : State).port p = s.port p := rfl

@[simp] theorem State.port_withBus (s : State) (b : Bus) (p : Port) :
    ({ s with bus := b } : State).port p = s.port p := rfl

@[simp] theorem State.port_withSched (s : State) (l : List Move) (p : Port) :
    ({ s with sched := l } : State).port p = s.port p := rfl

@[simp] theorem State.port_withTick (s : State) (n : Nat) (p : Port) :
    ({ s with tick := n } : State).port p = s.port p := rfl

/-! ### Answering -/

@[simp] theorem State.answer_slots (s : State) (r : OpResult) : (s.answer r).slots = s.slots := rfl

@[simp] theorem State.answer_bus (s : State) (r : OpResult) : (s.answer r).bus = s.bus := rfl

@[simp] theorem State.answer_sched (s : State) (r : OpResult) : (s.answer r).sched = s.sched := rfl

@[simp] theorem State.answer_tick (s : State) (r : OpResult) : (s.answer r).tick = s.tick := rfl

@[simp] theorem State.answer_params (s : State) (r : OpResult) : (s.answer r).params = s.params := rfl

@[simp] theorem State.answer_port_self (s : State) (r : OpResult) :
    (s.answer r).port s.bus.port =
      { s.port s.bus.port with job := none, result := some r } := by simp [State.answer]

@[simp] theorem State.answer_port_ne (s : State) (r : OpResult) {p : Port} (h : p ≠ s.bus.port) :
    (s.answer r).port p = s.port p := by simp [State.answer, h]

/-! ### Settling a burst -/

@[simp] theorem State.settle_slots (s : State) (p : Port) (x : Slots × Job) :
    (s.settle p x).slots = x.1 := rfl

@[simp] theorem State.settle_bus (s : State) (p : Port) (x : Slots × Job) :
    (s.settle p x).bus = s.bus := rfl

@[simp] theorem State.settle_sched (s : State) (p : Port) (x : Slots × Job) :
    (s.settle p x).sched = s.sched := rfl

@[simp] theorem State.settle_tick (s : State) (p : Port) (x : Slots × Job) :
    (s.settle p x).tick = s.tick := rfl

@[simp] theorem State.settle_params (s : State) (p : Port) (x : Slots × Job) :
    (s.settle p x).params = s.params := rfl

@[simp] theorem State.settle_port_ne (s : State) {p p' : Port} (h : p' ≠ p) (x : Slots × Job) :
    (s.settle p x).port p' = s.port p' := by simp [State.settle, h]

theorem State.settle_port_done (s : State) (p : Port) (x : Slots × Job) (h : x.2.stages = []) :
    (s.settle p x).port p = { s.port p with job := none, result := some x.2.answer } := by
  simp [State.settle, h]

theorem State.settle_port_parked (s : State) (p : Port) (x : Slots × Job) (h : x.2.stages ≠ []) :
    (s.settle p x).port p = { s.port p with job := some x.2, result := none } := by
  simp [State.settle, h]

/-! ### Hardware reset -/

@[simp] theorem State.hardReset_slots (s : State) : s.hardReset.slots = Slots.reset := rfl

@[simp] theorem State.hardReset_sched (s : State) : s.hardReset.sched = s.sched := rfl

@[simp] theorem State.hardReset_params (s : State) : s.hardReset.params = s.params := rfl

@[simp] theorem State.hardReset_port (s : State) (p : Port) :
    s.hardReset.port p = { s.port p with job := none } := by cases p <;> rfl

end Sys2Proof.Machine
end

