-- ==== Sys2Proof/Laws/Ops.lean ====
section
/-! SUPPORT. One lemma per shared operation that says everything it can do. -/

namespace Sys2Proof.Machine

/-! ### Frames of the shared operations -/

/-- Answering changes only the port of the turn, and completes its op. -/
theorem State.answer_completes (s : State) (r : OpResult) : Completes s (s.answer r) s.slots r where
  slots := rfl
  job := by simp
  result := by simp
  frame := ⟨fun q h => by simp [h], by simp, rfl, rfl, rfl, rfl⟩

/-- Settling a burst of the turn's port changes only that port and the registers. -/
theorem State.settle_onlyPort (s : State) (p : Port) (x : Slots × Job) :
    OnlyPort p s (s.settle p x) where
  others := fun q h => by simp [h]
  queue := by
    by_cases h : x.2.stages = []
    · rw [State.settle_port_done s p x h]
    · rw [State.settle_port_parked s p x h]
  bus := rfl
  sched := rfl
  tick := rfl
  params := rfl

/-- A burst that leaves no slot event completes the op. -/
theorem State.settle_completes (s : State) (x : Slots × Job) (h : x.2.stages = []) :
    Completes s (s.settle s.bus.port x) x.1 x.2.answer where
  slots := rfl
  job := by rw [State.settle_port_done s _ x h]
  result := by rw [State.settle_port_done s _ x h]
  frame := State.settle_onlyPort s _ x

/-- Every op on a port that owns it does what `k` says; on any other port it is answered `ILLEGAL`. -/
theorem State.ifAccepted_cases (s : State) (i : Instr) (k : State) :
    (i.acceptedOn s.bus.port = true ∧ s.ifAccepted i k = .next k) ∨
      (i.acceptedOn s.bus.port = false ∧ s.ifAccepted i k = .next (s.answer .illegal)) := by
  cases h : i.acceptedOn s.bus.port <;> simp [State.ifAccepted, h]

/-- Beginning an op changes only the port of the turn and the registers. -/
theorem State.launch_onlyPort (s : State) (job : Job) (a : Slots × OpResult) :
    OnlyPort s.bus.port s (s.launch job a) := by
  unfold State.launch
  split
  · obtain ⟨_, _, _, f⟩ := State.answer_completes { s with slots := a.1 } a.2
    exact ⟨f.others, f.queue, f.bus, f.sched, f.tick, f.params⟩
  · exact State.settle_onlyPort s _ _

/-! ### Slot events -/

/-- The events that depend on an event amount to less than it does. -/
theorem SlotEvent.weight_more_lt (e : SlotEvent) (sl : Slots) (t : Vector Chan 16) :
    ((e.perform sl t).more.map SlotEvent.weight).sum < e.weight := by
  cases e with
  | stepRead k dir =>
    simp only [SlotEvent.perform]
    split <;> simp [SlotEvent.weight]
  | edgeRead key =>
    simp only [SlotEvent.perform]
    split
    · cases key <;> simp [SlotEvent.weight]
    · cases key with
      | tog j => simp [EdgeKey.fired, SlotEvent.weight]
      | rst => decide
  | _ => simp [SlotEvent.perform, SlotEvent.weight]

/-- Taking one event out of a stage takes its weight out. -/
theorem SlotEvent.weight_eraseIdx (es : List SlotEvent) (i : Nat) (h : i < es.length) :
    ((es.eraseIdx i).map SlotEvent.weight).sum + es[i].weight = (es.map SlotEvent.weight).sum := by
  induction es generalizing i with
  | nil => simp at h
  | cons e es ih =>
    cases i with
    | zero => simp; omega
    | succ i =>
      have := ih i (by simpa using h)
      simp only [List.eraseIdx_cons_succ, List.map_cons, List.sum_cons, List.getElem_cons_succ]
      omega

@[simp] theorem Stage.weight_ofList (es : List SlotEvent) :
    ((Stage.ofList es).map Stage.weight).sum = (es.map SlotEvent.weight).sum := by
  cases es <;> simp [Stage.ofList, Stage.weight]

/-- Every slot event brings an op closer to its end. -/
theorem Job.event_weight_lt (n : Nat) (x : Slots × Job) (h : x.2.stages ≠ []) :
    (Job.event n x).2.weight < x.2.weight := by
  obtain ⟨sl, ret, t, stages⟩ := x
  cases stages with
  | nil => exact absurd rfl h
  | cons st rest =>
    have hi : n % (st.first :: st.others).length < (st.first :: st.others).length :=
      Nat.mod_lt _ (by simp)
    have he := SlotEvent.weight_eraseIdx _ _ hi
    have hm := SlotEvent.weight_more_lt
      ((st.first :: st.others)[n % (st.first :: st.others).length]) sl t
    simp only [Job.event, Job.weight, List.map_append, List.sum_append, Stage.weight_ofList,
      List.map_cons, List.sum_cons, Stage.weight, List.getD_eq_getElem _ _ hi]
    simp only [List.map_cons, List.sum_cons] at he
    omega

/-- An op with no slot event left stays as it is. -/
@[simp] theorem Job.event_done (n : Nat) (x : Slots × Job) (h : x.2.stages = []) :
    Job.event n x = x := by simp [Job.event, h]

@[simp] theorem Job.events_done (n : Nat) (x : Slots × Job) (h : x.2.stages = []) :
    Job.events n x = x := by
  induction n with
  | zero => rfl
  | succ n ih => simp [Job.events, h, ih]

/-- An op of weight 0 has no slot event left. -/
theorem Job.stages_of_weight_zero (j : Job) (h : j.weight = 0) : j.stages = [] := by
  obtain ⟨ret, t, stages⟩ := j
  cases stages with
  | nil => rfl
  | cons st rest =>
    have : 0 < st.first.weight := Nat.lt_of_le_of_lt (Nat.zero_le _)
      (SlotEvent.weight_more_lt st.first Slots.reset t)
    simp [Job.weight, Stage.weight] at h
    omega

/-- As many events as the weight of an op end it. -/
theorem Job.events_weight (n : Nat) (x : Slots × Job) (h : x.2.weight ≤ n) :
    (Job.events n x).2.stages = [] := by
  induction n generalizing x with
  | zero => exact Job.stages_of_weight_zero _ (Nat.le_zero.mp h)
  | succ n ih =>
    by_cases hs : x.2.stages = []
    · rw [Job.events_done _ _ hs]; exact hs
    · exact ih _ (by have := Job.event_weight_lt 0 x hs; omega)

/-- A whole burst ends the op (R276). -/
theorem Job.run_whole (b : Burst) (x : Slots × Job) (h : b.whole = true) :
    (Job.run b x).2.stages = [] := by
  simp only [Job.run, h, if_true]
  exact Job.events_weight _ _ le_rfl

/-- What an op returns is fixed when it begins. -/
@[simp] theorem Job.event_ret (n : Nat) (x : Slots × Job) : (Job.event n x).2.ret = x.2.ret := by
  unfold Job.event; split <;> rfl

@[simp] theorem Job.events_ret (n : Nat) (x : Slots × Job) : (Job.events n x).2.ret = x.2.ret := by
  induction n generalizing x with
  | zero => rfl
  | succ n ih => simp [Job.events, ih]

@[simp] theorem Job.run_ret (b : Burst) (x : Slots × Job) : (Job.run b x).2.ret = x.2.ret := by
  have hp : ∀ (l : List Nat) (y : Slots × Job),
      (l.foldl (fun y n => Job.event n y) y).2.ret = y.2.ret := by
    intro l
    induction l with
    | nil => intro y; rfl
    | cons n l ih => intro y; simp [ih]
  simp only [Job.run]
  split <;> simp [hp]

/-- A property of the pair that one slot event keeps is kept by a burst. Every fact about an op in progress
that does not depend on the order of its events is an instance of this. -/
theorem Job.run_induction {P : Slots × Job → Prop} (hev : ∀ n x, P x → P (Job.event n x))
    (b : Burst) (x : Slots × Job) (h : P x) : P (Job.run b x) := by
  have hp : ∀ (l : List Nat) (y : Slots × Job), P y → P (l.foldl (fun y n => Job.event n y) y) := by
    intro l
    induction l with
    | nil => intro y hy; exact hy
    | cons n l ih => intro y hy; exact ih _ (hev n y hy)
  have he : ∀ (n : Nat) (y : Slots × Job), P y → P (Job.events n y) := by
    intro n
    induction n with
    | zero => intro y hy; exact hy
    | succ n ih => intro y hy; exact ih _ (hev 0 y hy)
  simp only [Job.run]
  split
  · exact he _ _ (hp _ _ h)
  · exact hp _ _ h

/-- A property of pending events that every event passes on to those it gives rise to is kept by every slot
event. -/
theorem Job.allEvents_event {f : SlotEvent → Bool}
    (hf : ∀ e sl t, f e = true → ((e.perform sl t).more).all f = true) (n : Nat) (x : Slots × Job)
    (h : x.2.allEvents f = true) : (Job.event n x).2.allEvents f = true := by
  obtain ⟨sl, ret, t, stages⟩ := x
  cases stages with
  | nil => exact h
  | cons st rest =>
    have hi : n % (st.first :: st.others).length < (st.first :: st.others).length :=
      Nat.mod_lt _ (by simp)
    have hst : ∀ e ∈ st.first :: st.others, f e = true := by
      intro e he
      simp only [Job.allEvents, List.all_cons, Bool.and_eq_true] at h
      exact List.all_eq_true.mp (by simpa using h.1) e he
    have hrest : rest.all (fun st => (st.first :: st.others).all f) = true := by
      simp only [Job.allEvents, List.all_cons, Bool.and_eq_true] at h
      simpa using h.2
    have hof : ∀ es : List SlotEvent, es.all f = true →
        (Stage.ofList es).all (fun st => (st.first :: st.others).all f) = true := by
      intro es hes
      cases es <;> simp_all [Stage.ofList]
    simp only [Job.event, Job.allEvents, List.all_append, Bool.and_eq_true, List.getD_eq_getElem _ _ hi]
    refine ⟨hof _ ?_, hrest⟩
    rw [List.all_append, Bool.and_eq_true]
    exact ⟨hf _ _ _ (hst _ (List.getElem_mem hi)),
      List.all_eq_true.mpr fun e he => hst e (List.mem_of_mem_eraseIdx he)⟩

/-! ### The next piece of the slot order -/

/-- Whatever comes next: a move laid down, a free choice among the ports with something to do, or nothing. -/
theorem State.nextMove_cases (s : State) :
    (∃ m rest, s.sched = m :: rest ∧ s.nextMove = some (m, { s with sched := rest })) ∨
      (s.sched = [] ∧ ∃ p ∈ s.pendingPorts, ∃ n,
        s.nextMove = some (.act p { picks := [n], whole := false }, { s with tick := s.tick + 2 })) ∨
      (s.sched = [] ∧ s.pendingPorts = [] ∧ s.nextMove = none) := by
  unfold State.nextMove
  cases hs : s.sched with
  | cons m rest => exact .inl ⟨m, rest, rfl, rfl⟩
  | nil =>
    cases hp : s.pendingPorts with
    | nil => exact .inr (.inr ⟨rfl, rfl, rfl⟩)
    | cons p ps =>
      have hi : Config.freeChoice s.tick % (ps.length + 1) < (p :: ps).length :=
        Nat.mod_lt _ (by simp)
      refine .inr (.inl ⟨rfl, _, ?_, _, rfl⟩)
      rw [List.getD_eq_getElem _ _ hi]
      exact List.getElem_mem hi

end Sys2Proof.Machine
end

