-- ==== Sys2Proof/Laws/InputMapper.lean ====
section
/-! SUPPORT. The frames of the actions of `POLL` as functions on the slots: which slots an action leaves as
they are, and what it does to its own (41_input_mapper.md R142 to R147). -/

namespace Sys2Proof.Machine

/-! ### The slots of different actions are different (R147) -/

theorem swch_ne_stepCh (j : Fin 11) (k : Fin 4) : swch j ≠ stepCh k := by revert j k; decide
theorem swch_ne_snapCh (j : Fin 11) : swch j ≠ snapCh := by revert j; decide
theorem stepCh_ne_snapCh (k : Fin 4) : stepCh k ≠ snapCh := by revert k; decide

theorem swch_injective {j j' : Fin 11} : swch j = swch j' ↔ j = j' := by revert j j'; decide

theorem EdgeKey.latch_injective {a b : EdgeKey} : a.latch = b.latch ↔ a = b := by
  cases a <;> cases b <;> simp only [EdgeKey.latch, EdgeKey.tog.injEq, reduceCtorEq, iff_false]
  · rename_i i j; revert i j; decide
  · rename_i i; revert i; decide
  · rename_i i; revert i; decide

/-! ### STEP and SNAP -/

@[simp] theorem Slots.getSw_step (sl : Slots) (keys : BitVec 22) (k : Fin 4) (j : Fin 11) :
    (sl.step keys k).getSw j = sl.getSw j := by
  unfold Slots.step
  split
  · rfl
  · split <;> rfl

@[simp] theorem Slots.getLatch_step (sl : Slots) (keys : BitVec 22) (k : Fin 4) (m : Fin 12) :
    (sl.step keys k).getLatch m = sl.getLatch m := by
  unfold Slots.step
  split
  · rfl
  · split <;> rfl

theorem Slots.getCh_step_ne (sl : Slots) (keys : BitVec 22) {k : Fin 4} {c : Fin 16} (h : c ≠ stepCh k) :
    (sl.step keys k).getCh c = sl.getCh c := by
  unfold Slots.step
  split
  · rfl
  · split <;> simp [h]

@[simp] theorem Slots.getSw_snap (sl : Slots) (keys : BitVec 22) (j : Fin 11) :
    (sl.snap keys).getSw j = sl.getSw j := by unfold Slots.snap; split <;> rfl

@[simp] theorem Slots.getLatch_snap (sl : Slots) (keys : BitVec 22) (m : Fin 12) :
    (sl.snap keys).getLatch m = sl.getLatch m := by unfold Slots.snap; split <;> rfl

theorem Slots.getCh_snap_ne (sl : Slots) (keys : BitVec 22) {c : Fin 16} (h : c ≠ snapCh) :
    (sl.snap keys).getCh c = sl.getCh c := by unfold Slots.snap; split <;> simp [h]

/-! ### EDGE -/

@[simp] theorem Slots.getCh_edge (sl : Slots) (keys : BitVec 22) (key : EdgeKey) (c : Fin 16) :
    (sl.edge keys key).getCh c = sl.getCh c := by
  unfold Slots.edge
  split
  · split <;> rfl
  · rfl

@[simp] theorem Slots.getSw_edge (sl : Slots) (keys : BitVec 22) (key : EdgeKey) (j : Fin 11) :
    (sl.edge keys key).getSw j = sl.getSw j := by
  unfold Slots.edge
  split
  · split <;> rfl
  · rfl

/-- After `EDGE` the latch of the key is its sampled level (R144). -/
@[simp] theorem Slots.getLatch_edge_self (sl : Slots) (keys : BitVec 22) (key : EdgeKey) :
    (sl.edge keys key).getLatch key.latch = key.level keys := by
  unfold Slots.edge
  cases h : key.level keys
  · simp
  · cases h' : sl.getLatch key.latch <;> simp [h']

theorem Slots.getLatch_edge_ne (sl : Slots) (keys : BitVec 22) {key : EdgeKey} {m : Fin 12}
    (h : m ≠ key.latch) : (sl.edge keys key).getLatch m = sl.getLatch m := by
  unfold Slots.edge
  split
  · split <;> simp [h]
  · simp [h]

/-! ### TOG and KRST -/

theorem Slots.getCh_tog_ne (sl : Slots) (keys : BitVec 22) {j : Fin 11} {c : Fin 16} (h : c ≠ swch j) :
    (sl.tog keys j).getCh c = sl.getCh c := by
  simp only [Slots.tog, Slots.advanceSw]
  split <;> simp [h]

theorem Slots.getSw_tog_ne (sl : Slots) (keys : BitVec 22) {j j' : Fin 11} (h : j' ≠ j) :
    (sl.tog keys j).getSw j' = sl.getSw j' := by
  simp only [Slots.tog, Slots.advanceSw]
  split <;> simp [h]

@[simp] theorem Slots.getLatch_tog (sl : Slots) (keys : BitVec 22) (j : Fin 11) (m : Fin 12) :
    (sl.tog keys j).getLatch m = (sl.edge keys (.tog j)).getLatch m := by
  simp only [Slots.tog, Slots.advanceSw]
  split <;> rfl

/-- `TOG` on its own slot and channel (R145). -/
theorem Slots.tog_self (sl : Slots) (keys : BitVec 22) (j : Fin 11) :
    ((sl.tog keys j).getSw j, (sl.tog keys j).getCh (swch j)) =
      if sl.fires keys (.tog j) then (nextPos (sl.getSw j), swValue (nextPos (sl.getSw j)))
      else (sl.getSw j, sl.getCh (swch j)) := by
  simp only [Slots.tog, Slots.advanceSw]
  split <;> simp

/-- `KRST` that does not fire only samples its latch (R146). -/
theorem Slots.krst_of_not_fires (sl : Slots) (keys : BitVec 22) (h : sl.fires keys .rst = false) :
    sl.krst keys = sl.edge keys .rst := by simp [Slots.krst, h]

/-- `KRST` that fires restores the neutral configuration (R146). -/
theorem Slots.krst_of_fires (sl : Slots) (keys : BitVec 22) (h : sl.fires keys .rst = true) :
    sl.krst keys = (sl.edge keys .rst).resetToNeutral := by simp [Slots.krst, h]

@[simp] theorem Slots.getLatch_krst (sl : Slots) (keys : BitVec 22) (m : Fin 12) :
    (sl.krst keys).getLatch m = (sl.edge keys .rst).getLatch m := by
  simp only [Slots.krst]
  split <;> simp

/-- Whether a key fires depends on its level and its latch alone (R144). -/
theorem Slots.fires_congr {a b : Slots} (keys : BitVec 22) (key : EdgeKey)
    (h : a.getLatch key.latch = b.getLatch key.latch) : a.fires keys key = b.fires keys key := by
  simp [Slots.fires, h]

end Sys2Proof.Machine
end

