-- ==== Sys2Proof/Laws/PerInstr.lean ====
section
/-! SUPPORT. Facts about every op, one lemma per constructor. Family OwningPort: the word of an op, presented
on the port its op field names, is accepted there (30_encoding.md R96). -/

namespace Sys2Proof.Laws.OwningPort

/-- The port of an op's word owns the op (R96, column "port"). -/
def Statement (i : Instr) : Prop := i.acceptedOn (portOfWord (encode i)) = true

theorem nop : Statement .nop := by unfold Statement; decide

theorem get (idx : Fin 16) : Statement (.get idx) := by
  have h : opField (encode (.get idx)) = 0x1#4 := by
    unfold opField encode
    rw [BitVec.extractLsb'_append_eq_of_le (by decide)]
    decide
  simp [Statement, portOfWord, h, Instr.acceptedOn]

theorem set (idx : Fin 16) (val : Chan) : Statement (.set idx val) := by
  have h : opField (encode (.set idx val)) = 0x2#4 := by
    unfold opField encode
    rw [BitVec.extractLsb'_append_eq_of_le (by decide), BitVec.extractLsb'_append_eq_of_le (by decide)]
    decide
  simp [Statement, portOfWord, h, Instr.acceptedOn]

theorem rstn : Statement .rstn := by unfold Statement; decide

theorem poll (keys : BitVec 22) : Statement (.poll keys) := by
  have h : opField (encode (.poll keys)) = 0x4#4 := by
    unfold opField encode
    rw [BitVec.extractLsb'_append_eq_of_le (by decide)]
    decide
  simp [Statement, portOfWord, h, Instr.acceptedOn]

theorem enc : Statement .enc := by unfold Statement; decide

theorem dec (len : BitVec 8) : Statement (.dec len) := by
  have h : opField (encode (.dec len)) = 0x6#4 := by
    unfold opField encode
    rw [BitVec.extractLsb'_append_eq_of_le (by decide)]
    decide
  simp [Statement, portOfWord, h, Instr.acceptedOn]

end Sys2Proof.Laws.OwningPort
end

