-- ==== Sys2Proof/Laws/Turns.lean ====
section
/-! SUPPORT. What a turn of a port can do (20_memory.md R62, R63), and what any part of an `ENC` does to the
values it samples (42_frame_encoder.md R170, 20_memory.md R65). -/

namespace Sys2Proof.Machine

/-! ### Turns -/

/-- A turn goes on with the op in progress, or finds nothing to do, or presents the next request, whose word it
answers. -/
theorem turn_cases {p : Port} {b : Burst} {s t : State} (h : turn p b s = .next t) :
    ((s.port p).job.isSome = true ∧ t = s.advance p b) ∨
      ((s.port p).job = none ∧ (s.port p).queue = [] ∧ t = s) ∨
      ∃ request rest s', (s.port p).job = none ∧ (s.port p).queue = request :: rest ∧
        s' = { s with bus := { port := p, buf := request.buf, burst := b } }.setPort p
          { queue := rest, job := none, result := none } ∧
        runWord request.cw s' = .next t := by
  unfold turn at h
  split at h
  · exact .inl ⟨‹_›, (Host.Outcome.next.inj h).symm⟩
  · have hj : (s.port p).job = none := by simpa using ‹¬(s.port p).job.isSome = true›
    unfold State.present at h
    cases hq : (s.port p).queue with
    | nil =>
      rw [hq] at h
      exact .inr (.inl ⟨hj, rfl, (Host.Outcome.next.inj h).symm⟩)
    | cons request rest =>
      rw [hq] at h
      exact .inr (.inr ⟨request, rest, _, hj, rfl, rfl, h⟩)

/-- Going on with an op changes only its port and the registers. -/
theorem State.advance_onlyPort (s : State) (p : Port) (b : Burst) : OnlyPort p s (s.advance p b) := by
  unfold State.advance
  split
  · exact ⟨fun _ _ => rfl, rfl, rfl, rfl, rfl, rfl⟩
  · exact State.settle_onlyPort s p _

/-! ### Sampling -/

/-- A read that only samples: all that `ENC` and `GET` do. -/
def SlotEvent.isSample (e : SlotEvent) : Bool :=
  match e with
  | .sample _ => true
  | _ => false

/-- The read of channel `k` is among the pending slot events of an op. -/
abbrev Job.reads (j : Job) (k : Fin 16) : Prop :=
  ∃ st ∈ j.stages, .sample k ∈ st.first :: st.others

/-- What a part of an op that only samples has done since `x`: no register has changed, and every value is
either sampled from the registers as they stand, or as it was, and then its read is still pending if it was. -/
structure Job.Sampling (x y : Slots × Job) : Prop where
  slots : y.1 = x.1
  samplesOnly : y.2.allEvents SlotEvent.isSample = true
  ret : y.2.ret = x.2.ret
  value : ∀ k : Fin 16, y.2.samples[k] = x.1.getCh k ∨
    (y.2.samples[k] = x.2.samples[k] ∧ (x.2.reads k → y.2.reads k))

theorem Job.Sampling.refl (x : Slots × Job) (h : x.2.allEvents SlotEvent.isSample = true) :
    Job.Sampling x x :=
  ⟨rfl, h, rfl, fun _ => .inr ⟨rfl, id⟩⟩

/-- The pending reads of a job whose first stage is a list of events. -/
theorem Job.reads_ofList (ret : Ret) (t : Vector Chan 16) (es : List SlotEvent) (rest : List Stage)
    (k : Fin 16) :
    ({ ret := ret, samples := t, stages := Stage.ofList es ++ rest } : Job).reads k ↔
      .sample k ∈ es ∨ ∃ st ∈ rest, .sample k ∈ st.first :: st.others := by
  cases es <;> simp [Job.reads, Stage.ofList]

/-- An element of a list other than the one taken out stays in it. -/
theorem mem_eraseIdx_of_ne_getElem {α : Type} {a : α} (l : List α) (i : Nat) (hi : i < l.length)
    (h : a ∈ l) (hne : a ≠ l[i]) : a ∈ l.eraseIdx i := by
  induction l generalizing i with
  | nil => simp at h
  | cons b l ih =>
    cases i with
    | zero =>
      rcases List.mem_cons.mp h with rfl | h
      · exact absurd rfl hne
      · exact h
    | succ i =>
      rw [List.eraseIdx_cons_succ]
      rcases List.mem_cons.mp h with rfl | h
      · exact List.mem_cons_self
      · exact List.mem_cons_of_mem _ (ih i (by simpa using hi) h (by simpa using hne))

/-- One slot event of an op that only samples. -/
theorem Job.sampling_event (n : Nat) (x y : Slots × Job) (h : Job.Sampling x y) :
    Job.Sampling x (Job.event n y) := by
  obtain ⟨sl, ret, t, stages⟩ := y
  have hall := Job.allEvents_event (f := SlotEvent.isSample)
    (by intro e sl t he; cases e <;> simp_all [SlotEvent.isSample, SlotEvent.perform]) n _ h.samplesOnly
  cases stages with
  | nil => exact h
  | cons st rest =>
    have hi : n % (st.first :: st.others).length < (st.first :: st.others).length :=
      Nat.mod_lt _ (by simp)
    obtain ⟨c, hc⟩ : ∃ c, (st.first :: st.others)[n % (st.first :: st.others).length] = .sample c := by
      have hs := h.samplesOnly
      simp only [Job.allEvents, List.all_cons, Bool.and_eq_true] at hs
      have := List.all_eq_true.mp (show (st.first :: st.others).all SlotEvent.isSample = true by
        simpa using hs.1) _ (List.getElem_mem hi)
      cases he : (st.first :: st.others)[n % (st.first :: st.others).length] <;>
        simp_all [SlotEvent.isSample]
    have hev : Job.event n (sl, ⟨ret, t, st :: rest⟩) =
        (sl, ⟨ret, t.set c (sl.getCh c),
          Stage.ofList ((st.first :: st.others).eraseIdx (n % (st.first :: st.others).length)) ++ rest⟩) := by
      simp only [Job.event, List.getD_eq_getElem _ _ hi, hc, SlotEvent.perform, List.nil_append]
    rw [hev] at hall ⊢
    refine ⟨h.slots, hall, h.ret, fun k => ?_⟩
    by_cases hk : k = c
    · subst hk
      left
      have : sl = x.1 := h.slots
      simp [this]
    · have hget : (t.set c (sl.getCh c))[k] = t[k] := by
        simp only [Fin.getElem_fin, Vector.getElem_set, Fin.ext_iff] at hk ⊢
        rw [if_neg (fun hh => hk hh.symm)]
      rcases h.value k with hv | ⟨hv, hr⟩
      · exact .inl (hget.trans hv)
      · refine .inr ⟨hget.trans hv, fun hx => ?_⟩
        obtain ⟨st', hst', hmem⟩ := hr hx
        rw [Job.reads_ofList]
        rcases List.mem_cons.mp hst' with rfl | hst'
        · exact .inl (mem_eraseIdx_of_ne_getElem _ _ hi hmem (by rw [hc]; simpa using hk))
        · exact .inr ⟨st', hst', hmem⟩

/-- Any burst of an op that only samples. -/
theorem Job.sampling_run (b : Burst) (x : Slots × Job)
    (h : x.2.allEvents SlotEvent.isSample = true) : Job.Sampling x (Job.run b x) :=
  Job.run_induction (P := Job.Sampling x) (fun n y hy => Job.sampling_event n x y hy) b x
    (Job.Sampling.refl x h)

end Sys2Proof.Machine
end

