-- ==== Sys2Proof/Tests/Slice0.lean ====
section
/-! SUPPORT. Own tests. Expected values come from spec/ (95_test_vectors.md unless said otherwise), never from
the model. Then, for every statement with hypotheses, a witness that meets them together. -/

namespace Sys2Proof.Machine.Tests

/-! ### Helpers -/

/-- The reset state with an op about to run undisturbed on port `p`, `P_ATOMIC_OPS` as given. -/
def on (p : Port) (atomicOps : Bool) : State :=
  { State.reset with
    bus := { State.reset.bus with port := p }
    params := { Params.default with atomicOps := atomicOps } }

/-- The reset state with bytes presented to RX. -/
def onRx (bytes : List Byte) : State :=
  { State.reset with bus := { port := .rx, buf := Buf.ofBytes bytes, burst := ⟨[], true⟩ } }

/-- The registers after an outcome. -/
def slotsOf (o : Host.Outcome State Fault Refusal) : Option Slots :=
  match o with
  | .next t => some t.slots
  | _ => none

/-- The result on a port after an outcome. -/
def resultOf (p : Port) (o : Host.Outcome State Fault Refusal) : Option OpResult :=
  match o with
  | .next t => (t.port p).result
  | _ => none

/-- `CH[k]` after a tick of the keys named, from reset with `CH[k] = v`. -/
def chAfter (k : Fin 16) (v : Chan) (names : List Key) : Chan :=
  ((Slots.reset.setCh k v).pollTick .last (keysOf names)).getCh k

/-- The bytes of vector V1, the frame of the neutral configuration. -/
def v1 : List Byte :=
  [0x0F, 0xE8, 0x43, 0x1F, 0xFA, 0xD0, 0x47, 0x1F, 0xF4, 0xD1, 0x87, 0x3E, 0xF4, 0xA1, 0x0F, 0x7D,
   0xE8, 0x43, 0x1F, 0xFA, 0xD0, 0x87, 0x3E, 0x00, 0x00]

/-- The values `DEC` gives on V1. -/
def v1Values : Vector Chan 12 :=
  #v[1000#11, 1000#11, 1000#11, 1000#11, 500#11, 1000#11, 500#11, 500#11, 500#11, 500#11, 500#11, 500#11]

/-! ### Well-formed commands: an ill-formed one for each port (R241) -/

theorem test_wf_get_on_host : Command.wf { port := .host, op := .get 0 } := by decide
theorem test_illFormed_enc_on_host : ¬Command.wf { port := .host, op := .enc } := by decide
theorem test_illFormed_get_on_tx : ¬Command.wf { port := .tx, op := .get 0 } := by decide
theorem test_illFormed_poll_on_rx : ¬Command.wf { port := .rx, op := .poll 0#22 } := by decide
theorem test_illFormed_rstn_on_map : ¬Command.wf { port := .map, op := .rstn } := by decide
theorem test_illFormed_set_on_map : ¬Command.wf { port := .map, op := .set 0 0#11 } := by decide
theorem test_illFormed_dec_on_tx : ¬Command.wf { port := .tx, op := .dec 25#8 } := by decide
theorem test_wf_nop_everywhere : ∀ p ∈ [Port.map, .tx, .rx, .host], Command.wf { port := p, op := .nop } := by
  decide

/-! ### Decoding: words written out bit by bit from the formats of R91 to R95 -/

theorem test_decode_nop : decode 0b00000000000000000000000000000000#32 = .ok .nop := by decide
theorem test_decode_get : decode 0b00010000000000000000000000001111#32 = .ok (.get 15) := by decide
theorem test_decode_set : decode 0b00100000000000000010010111011100#32 = .ok (.set 4 1500#11) := by decide
theorem test_decode_rstn : decode 0b00110000000000000000000000000000#32 = .ok .rstn := by decide
theorem test_decode_poll :
    decode 0b01000000001000000000100100010000#32 = .ok (.poll (keysOf [.rst, .tog7, .inc3, .hi6])) := by
  decide
theorem test_decode_enc : decode 0b01010000000000000000000000000000#32 = .ok .enc := by decide
theorem test_decode_dec : decode 0b01100000000000000000000000011001#32 = .ok (.dec 25#8) := by decide
/-- E15, E16: the reserved ops and one zero-field violation per op. -/
theorem test_decode_illegal :
    [0x70000000#32, 0xF0000000#32, 0xFFFFFFFF#32, 0x00000001#32, 0x10000010#32, 0x20008000#32, 0x30000001#32,
      0x40400000#32, 0x50000001#32, 0x60000100#32].all (fun w => decodeTableWord 32 w.toNat == none) = true := by
  decide
/-- E5, E10, P2: the encoder. -/
theorem test_encode : encode (.set 4 1500#11) = 0x200025DC#32 ∧ encode (.set 11 1500#11) = 0x20005DDC#32 ∧
    encode (.poll (keysOf [.rst, .tog7, .inc3, .hi6])) = 0x40200910#32 := by decide

/-! ### NOP, GET, SET, RSTN -/

theorem test_nop : slotsOf (exec .nop (on .tx false)) = some Slots.reset ∧
    resultOf .tx (exec .nop (on .tx false)) = some .ok := by decide +kernel
/-- G1. -/
theorem test_get : resultOf .host (exec (.get 4) (on .host false)) = some (.okValue 500#11) ∧
    resultOf .host (exec (.get 5) (on .host true)) = some (.okValue 1000#11) := by decide +kernel
/-- G3, G4. -/
theorem test_set : slotsOf (exec (.set 15 2047#11) (on .host false)) = some (Slots.reset.setCh 15 2047#11) ∧
    slotsOf (exec (.set 4 1500#11) (on .host true)) =
      some { Slots.reset with ch := neutral.set 4 1500#11 } := by decide +kernel
/-- G6. -/
theorem test_rstn :
    let s := { on .host false with
      slots := (((Slots.reset.setCh 0 1234#11).setSw 3 3#2).setCh 8 1500#11).setLatch 3 true }
    slotsOf (exec .rstn s) = some (Slots.reset.setLatch 3 true) := by decide +kernel
/-- E17. -/
theorem test_wrong_port : resultOf .host (exec .enc (on .host false)) = some .illegal ∧
    resultOf .tx (exec (.get 0) (on .tx false)) = some .illegal := by decide +kernel

/-! ### POLL -/

/-- R140's example, as slot events and as one transition. -/
theorem test_poll :
    let end_ := ((Slots.reset.setCh 0 1010#11).setCh 4 1000#11).setSw 0 2#2 |>.setLatch 0 true
    slotsOf (exec (.poll 0x401#22) (on .map false)) = some end_ ∧
      slotsOf (exec (.poll 0x401#22) (on .map true)) = some end_ := by decide +kernel
/-- R4, R6: all keys from reset under both reset orders. -/
theorem test_poll_all_keys :
    Slots.reset.pollTick .last 0x3FFFFF#22 = { Slots.reset with latch := Vector.replicate 12 true } ∧
      Slots.reset.pollTick .first 0x3FFFFF#22 =
        { ch := #v[1010#11, 1010#11, 1010#11, 1010#11, 1000#11, 1680#11, 1000#11, 1000#11, 1000#11, 1000#11,
            1000#11, 1000#11, 1000#11, 1000#11, 1000#11, 1000#11],
          sw := Vector.replicate 11 2#2, latch := Vector.replicate 12 true } := by decide +kernel
/-- K3, K4, K7, K8, K11, K15, K16: increments at the bound. -/
theorem test_step_up : chAfter 0 1670#11 [.inc1] = 1680#11 ∧ chAfter 0 1680#11 [.inc1] = 1680#11 ∧
    chAfter 0 1679#11 [.inc1] = 1689#11 ∧ chAfter 0 1689#11 [.inc1] = 1689#11 ∧
    chAfter 0 2047#11 [.inc1] = 2047#11 ∧ chAfter 0 1000#11 [.inc1, .dec1] = 1010#11 ∧
    chAfter 0 1680#11 [.inc1, .dec1] = 1680#11 := by decide +kernel
/-- K5, K6, K9, K10, K12, K13: decrements at the bound. -/
theorem test_step_down : chAfter 0 370#11 [.dec1] = 360#11 ∧ chAfter 0 360#11 [.dec1] = 360#11 ∧
    chAfter 0 361#11 [.dec1] = 351#11 ∧ chAfter 0 351#11 [.dec1] = 351#11 ∧
    chAfter 0 2047#11 [.dec1] = 2037#11 ∧ chAfter 0 0#11 [.dec1] = 0#11 := by decide +kernel
/-- N2, N3, N5, N6. -/
theorem test_snap : chAfter 5 1000#11 [.lo6] = 360#11 ∧ chAfter 5 360#11 [.hi6] = 1680#11 ∧
    chAfter 5 1000#11 [.hi6, .lo6] = 1680#11 ∧ chAfter 5 700#11 [] = 700#11 := by decide +kernel
/-- T7, T9: the wrap from position 3, and the slot map. -/
theorem test_toggle :
    ((Slots.reset.setSw 0 3#2).pollTick .last (keysOf [.tog5])).getSw 0 = 1#2 ∧
      (Slots.reset.pollTick .last (keysOf [.tog16])).getCh 15 = 1000#11 ∧
      (Slots.reset.pollTick .last (keysOf [.tog7])).getCh 6 = 1000#11 := by decide +kernel

/-! ### ENC and DEC -/

/-- V1. -/
theorem test_enc :
    (resultOf .tx (exec .enc (on .tx false))).map OpResult.status = some .ok ∧
      (pack neutral).toList = v1 := by decide +kernel
/-- V4. -/
theorem test_pack_v4 :
    (pack #v[1#11, 2#11, 3#11, 4#11, 5#11, 6#11, 7#11, 8#11, 9#11, 10#11, 11#11, 12#11, 13#11, 14#11, 15#11,
      16#11]).toList =
      [0x0F, 0x01, 0x10, 0xC0, 0x00, 0x08, 0x50, 0x00, 0x03, 0x1C, 0x00, 0x01, 0x09, 0x50, 0xC0, 0x02, 0x18,
        0xD0, 0x00, 0x07, 0x3C, 0x00, 0x02, 0x00, 0x00] := by decide +kernel
/-- P1, X1. -/
theorem test_dec : resultOf .rx (exec (.dec 25#8) (onRx v1)) = some (.okDecoded v1Values) ∧
    resultOf .rx (exec (.dec 24#8) (onRx (v1.take 24))) = some .short := by decide +kernel
/-- X7, a stream slipped by one byte. -/
theorem test_dec_slipped : resultOf .rx (exec (.dec 25#8) (onRx (0xAA#8 :: v1.take 24))) =
    some (.okDecoded #v[15#11, 125#11, 125#11, 125#11, 1149#11, 62#11, 1149#11, 1086#11, 1086#11, 1086#11,
      1086#11, 1086#11]) := by decide +kernel

/-! ### Steps, turns and the assembler -/

/-- P1: the first step after reset runs the presented word. -/
theorem test_step_enc :
    (resultOf .tx (step (State.reset.withFetchWord 32 0x50000000))).map OpResult.status = some .ok := by
  decide +kernel
/-- E16: an illegal word changes nothing. -/
theorem test_step_illegal :
    resultOf .host (step (State.reset.withFetchWord 32 0x70000000)) = some .illegal ∧
      slotsOf (step (State.reset.withFetchWord 32 0x70000000)) = some Slots.reset := by decide +kernel
/-- R248: with nothing to do nothing changes. -/
theorem test_step_idle : step State.reset = .next State.reset := rfl
/-- R101: `SETCH 16, 2047` is `SET 15, 2047`; channel number 0 names no channel. -/
theorem test_pseudo : Pseudo.expand (.setCh 16 2047#11) = some [.set 15 2047#11] ∧
    Pseudo.expand (.getCh 0) = none ∧ Pseudo.expand (.tick 3 1#22) = some [.poll 1#22, .poll 1#22, .poll 1#22] := by
  decide
/-- R100, E9: the agent left out, key names joined; E13: `len` left out. -/
theorem test_assemble :
    (AsmLine.assemble { agent := none, op := .pollNames [.inc1, .tog5] }).map (fun x => (x.1, x.2.cw)) =
        some (.map, 0x40000401#32) ∧
      (AsmLine.assemble { agent := none, op := .decBytes none v1 }).map (fun x => (x.1, x.2.cw)) =
        some (.rx, 0x60000019#32) ∧
      (AsmLine.assemble { agent := none, op := .op .nop }).isNone = true := by decide +kernel

/-! ### Witnesses: for each statement with hypotheses, a state and operands that meet them -/

/-- The reset state is legal. -/
theorem reset_inv : State.reset.Inv where
  swLegal := by decide +kernel
  pendingLegal := by intro p; cases p <;> decide
  inLane := by intro p; cases p <;> decide
  atomicIdle := by intro h; exact absurd h (by decide)
  noEarlyResult := by intro p h; exact absurd h (by cases p <;> decide)

/-- `CH` reads of the encoder half done: TX has sampled `CH[0]`. -/
def encInProgress : State :=
  { State.reset with
    ports := { State.reset.ports with
      tx := { queue := [], result := none,
              job := some { ret := .frame, samples := Vector.replicate 16 1000#11,
                            stages := [{ first := .sample 1, others := [.sample 2] }] } } } }

theorem encInProgress_inv : encInProgress.Inv where
  swLegal := by decide +kernel
  pendingLegal := by intro p; cases p <;> decide
  inLane := by intro p; cases p <;> decide
  atomicIdle := by intro h; exact absurd h (by decide)
  noEarlyResult := by
    intro p h
    cases p
    case tx => rfl
    all_goals exact absurd h (by decide)

/-- A `sched` of one move put before a state's own. -/
def withMove (m : Move) (s : State) : State := { s with sched := [m] }

theorem withMove_inv (m : Move) {s : State} (h : s.Inv) : (withMove m s).Inv :=
  ⟨h.swLegal, h.pendingLegal, h.inLane, h.atomicIdle, h.noEarlyResult⟩

theorem witness_HardwareResetAbandonsOps : ∃ (s : State) (rest : List Move), s.Inv ∧ s.sched = .reset :: rest ∧
    (s.port .tx).job.isSome = true :=
  ⟨withMove .reset encInProgress, [], withMove_inv _ encInProgress_inv, rfl, rfl⟩
theorem witness_GetReturnsTheChannelValue : ∃ s : State, s.bus.port = .host ∧ s.Undisturbed :=
  ⟨on .host false, rfl, .inr rfl⟩
theorem witness_SetWritesOneChannelOnly : ∃ (idx k : Fin 16) (s : State), s.bus.port = .host ∧ s.Undisturbed ∧
    k ≠ idx := ⟨15, 0, on .host true, rfl, .inl rfl, by decide⟩
theorem witness_RstnRestoresNeutralAndKeepsLatches : ∃ s : State, s.bus.port = .host ∧ s.Undisturbed :=
  ⟨on .host false, rfl, .inr rfl⟩
/-- HOST about to do three of the 27 writes of a `RSTN`. -/
def rstnCut : State :=
  { on .host false with bus := { (on .host false).bus with burst := ⟨[0, 5, 20], false⟩ } }

theorem witness_RstnInProgressIsPartlyRestored : ∃ s t : State, exec .rstn s = .next t ∧
    (t.port .host).job.isSome = true :=
  ⟨rstnCut, rstnCut.launch (Job.start .done (Stage.ofList neutralWrites)) (rstnCut.slots.resetToNeutral, .ok),
    by rw [exec, execRstn, State.ifAccepted, if_pos (by decide)], by decide +kernel⟩
theorem witness_SetAndRstnAreIdempotent : ∃ (i : Instr) (s t u : State),
    (i = .rstn ∨ ∃ idx val, i = .set idx val) ∧ s.Undisturbed ∧ exec i s = .next t ∧ exec i t = .next u :=
  ⟨.set 3 7#11, on .host false, _, _, .inr ⟨3, 7#11, rfl⟩, .inr rfl, rfl, rfl⟩
theorem witness_ReadingOpsWriteNoRegister : ∃ (i : Instr) (s t : State),
    (i = .nop ∨ (∃ idx, i = .get idx) ∨ i = .enc ∨ ∃ len, i = .dec len) ∧ exec i s = .next t :=
  ⟨.get 2, on .host false, _, .inr (.inl ⟨2, rfl⟩), rfl⟩
theorem witness_PollIsOneTick : ∃ s : State, s.bus.port = .map ∧ s.Undisturbed :=
  ⟨on .map false, rfl, .inr rfl⟩
/-- Also for SnapSetsChannelSix and StepOvershootIsBounded: the reset key held but latched, and not held. -/
theorem witness_StepIsGuardedByTheBounds : Slots.reset.fires 0x1FFFFF#22 .rst = false ∧
    (Slots.reset.setLatch 11 true).fires 0x3FFFFF#22 .rst = false := by decide +kernel
/-- Each clause of ToggleAdvancesOnPressEdge: the reset firing beside a press edge (under either order), a press
edge on the first and last slot, and a held key. -/
theorem witness_ToggleAdvancesOnPressEdge :
    Slots.reset.fires (keysOf [.rst, .tog5]) .rst = true ∧
      ((keysOf [.tog5]).getLsbD (10 + 0) = true ∧ Slots.reset.getLatch 0 = false) ∧
      ((keysOf [.tog16]).getLsbD (10 + 10) = true ∧ Slots.reset.getLatch 10 = false) ∧
      ((keysOf [.tog5]).getLsbD (10 + 0) = true ∧ (Slots.reset.setLatch 0 true).getLatch 0 = true) := by decide +kernel
/-- Also for ResetKeyFirstActsFromNeutral, with a toggle key pressed and one held. -/
theorem witness_ResetKeyLastEndsNeutral : (keysOf [.rst, .tog5, .inc1]).getLsbD 21 = true ∧
    (Slots.reset.setLatch 0 true).getLatch 11 = false := by decide +kernel
theorem witness_HeldResetKeyHasNoEffect : (keysOf [.rst, .inc1]).getLsbD 21 = true ∧
    (Slots.reset.setLatch 11 true).getLatch 11 = true := by decide +kernel
theorem witness_ResetOrdersAgreeWithoutOtherKeys : Slots.reset.fires (keysOf [.inc1, .tog5]) .rst = false ∧
    keysOf [.rst] = BitVec.twoPow 22 21 ∧ Slots.reset.fires (keysOf [.rst]) .rst = true := by decide +kernel
theorem witness_HeldToggleAdvancesOnce :
    (∀ keys ∈ [0x400#22, 0x401#22], keys.getLsbD (10 + 0) = true ∧ keys.getLsbD 21 = false) ∧
      Slots.reset.getLatch 0 = false := by simp; decide
theorem witness_PressesCycleThroughThreePositions : Slots.reset.getSw 10 ≠ 0#2 ∧
    Slots.reset.getLatch 10 = false := by decide +kernel
theorem witness_CouplingIsRestored : (Slots.reset.setCh 4 77#11).fires (keysOf [.tog5]) .rst = false ∧
    (Slots.reset.setCh 4 77#11).fires (keysOf [.tog5]) (.tog 0) = true := by decide +kernel
theorem witness_PollKeepsItsReachableValues : Slots.reset.PollReachable where
  stepping := by decide +kernel
  snap := .inl rfl
  swLegal := by decide +kernel
  coupled := by decide +kernel
theorem witness_KeyHeldAtResetFires : (keysOf [.tog16, .inc1]).getLsbD (10 + 10) = true ∧
    (keysOf [.tog16, .inc1]).getLsbD 21 = false ∧ (keysOf [.rst, .tog5]).getLsbD 21 = true := by decide +kernel
theorem witness_EncReturnsTheFrameOfTheStore : ∃ s : State, s.bus.port = .tx ∧ s.Undisturbed :=
  ⟨on .tx true, rfl, .inl rfl⟩
theorem witness_ChangingOneChannelChangesOnlyItsBits :
    ∃ (t t' : Vector Chan 16) (k : Fin 16), t ≠ t' ∧ ∀ i : Fin 16, i ≠ k → t[i] = t'[i] :=
  ⟨neutral, neutral.set 5 2047#11, 5, by decide, by decide⟩
/-- The longest short buffer. -/
theorem witness_DecOfAShortBufferReturnsShort : ∃ (len : BitVec 8) (s : State), s.bus.port = .rx ∧
    len.toNat < 25 := ⟨24#8, onRx [], rfl, by decide⟩
theorem witness_ShortMeansAShortDec : ∃ (i : Instr) (s t : State) (r : OpResult), exec i s = .next t ∧
    (t.port s.bus.port).result = some r ∧ r.status = .short :=
  ⟨.dec 24#8, onRx [], _, _, rfl, rfl, by decide +kernel⟩
/-- A step that returns `SHORT` on RX, and one of an idle machine on which it stands. -/
theorem witness_ShortMeansAShortDec_step :
    (∃ s t : State, step s = .next t ∧ (t.port .rx).result = some .short) ∧
      ∃ s t : State, step s = .next t ∧ s.sched = [] ∧ (s.port .rx).result = some .short ∧
        (t.port .rx).result = some .short :=
  let shorted : State :=
    { State.reset with ports := { State.reset.ports with rx := { PortState.idle with result := some .short } } }
  ⟨⟨State.reset.withFetchWord 32 0x60000018, _, rfl, by decide +kernel⟩, shorted, shorted, rfl, rfl, rfl, rfl⟩
/-- The shortest long buffer; also for DecodingAnEncodedFrameReturnsTheChannels, whose frame is V1's. -/
theorem witness_DecReturnsTwelvePositionalValues : (onRx v1).bus.port = .rx ∧ 25 ≤ (25#8).toNat ∧
    ∀ i : Fin 25, (onRx v1).bus.buf[i.val] = (pack neutral)[i] := by decide +kernel
/-- Two buffers that differ in the header, in the high nibble of byte 17 and in the footer (X5, X8), in states
with different registers. -/
theorem witness_DecDependsOnItsPayloadBytesOnly :
    let s := onRx v1
    let s' := { onRx ((v1.set 0 0x00#8).set 17 0xF3#8 |>.set 24 0xFF#8) with slots := Slots.reset.setCh 0 0#11 }
    s.bus.port = .rx ∧ s'.bus.port = .rx ∧ ((25#8).toNat < 25 ↔ (255#8).toNat < 25) ∧
    (∀ i : Fin 255, 1 ≤ i.val → i.val ≤ 16 → s.bus.buf[i] = s'.bus.buf[i]) ∧
    s.bus.buf[17].extractLsb' 0 4 = s'.bus.buf[17].extractLsb' 0 4 := by decide +kernel
theorem witness_LegalWordIsTheWordOfItsOp : decode 0x1000000F#32 = .ok (.get 15) := by decide +kernel
/-- Both ranges of PseudoOpsExpandAsTheTable at their ends. -/
theorem witness_PseudoOpsExpandAsTheTable : (1 ≤ 1 ∧ 1 ≤ 16) ∧ (1 ≤ 16 ∧ 16 ≤ 16) ∧ ¬(1 ≤ 0 ∧ 0 ≤ 16) ∧
    ¬(1 ≤ 17 ∧ 17 ≤ 16) := by decide
theorem witness_StepRunsTheDecodedOp : ∃ (s : State) (p : Port) (b : Burst) (rest : List Move) (r : Request)
    (q : List Request) (i : Instr), s.sched = .act p b :: rest ∧ (s.port p).job = none ∧
    (s.port p).queue = r :: q ∧ decode r.cw = .ok i :=
  ⟨State.reset.withFetchWord 32 0x1000000F, .host, ⟨[], true⟩, [], _, [], .get 15, rfl, rfl, rfl, by decide⟩
theorem witness_IllegalWordIsAnsweredIllegal : ∃ (s : State) (p : Port) (b : Burst) (rest : List Move)
    (r : Request) (q : List Request) (e : DecodeError), s.sched = .act p b :: rest ∧ (s.port p).job = none ∧
    (s.port p).queue = r :: q ∧ decode r.cw = .error e :=
  ⟨State.reset.withFetchWord 32 0x10000010, .host, ⟨[], true⟩, [], _, [], _, rfl, rfl, rfl, rfl⟩
theorem witness_WrongPortIsAnsweredIllegal : Instr.enc ≠ .nop ∧ (on .host false).bus.port ≠ .tx := by decide +kernel
/-- A turn of TX with an op in progress. -/
theorem witness_PortsWriteOnlyTheirRegisters : ∃ s t : State, s.Inv ∧ turn .tx ⟨[], true⟩ s = .next t ∧
    (s.port .tx).job.isSome = true :=
  ⟨encInProgress, _, encInProgress_inv, rfl, rfl⟩
theorem witness_PortsWriteOnlyTheirRegisters_host : ∃ s t : State, s.Inv ∧ turn .host ⟨[], true⟩ s = .next t :=
  ⟨State.reset, _, reset_inv, rfl⟩
theorem witness_OneOpAtATimePerPort : ∃ s t : State, (s.port .tx).job.isSome = true ∧
    s.sched = [.act .tx ⟨[], true⟩] ∧ step s = .next t :=
  ⟨withMove (.act .tx ⟨[], true⟩) encInProgress, _, rfl, rfl, rfl⟩
theorem witness_AtomicOpIsAnUndisturbedOp : (on .map false).params.atomicOps = false ∧
    (on .map false).bus.burst.whole = true := by decide +kernel
theorem witness_CutOpGoesOnWhereItStopped : ∃ (i : Instr) (s t u : State) (p₁ p₂ : List Nat) (w : Bool),
    s.params.atomicOps = false ∧
    exec i { s with bus := { s.bus with burst := { picks := p₁ ++ p₂, whole := w } } } = .next t ∧
    exec i { s with bus := { s.bus with burst := { picks := p₁, whole := false } } } = .next u :=
  ⟨.enc, on .tx false, _, _, [3, 1], [2], true, rfl, rfl, rfl⟩
theorem witness_SampledValuesComeFromTheStore : ∃ (s t : State) (j j' : Job), s.Inv ∧
    (s.port .tx).job = some j ∧ (t.port .tx).job = some j' ∧ step s = .next t :=
  ⟨withMove (.act .tx ⟨[1], false⟩) encInProgress, _, _, _, withMove_inv _ encInProgress_inv, rfl, rfl, rfl⟩
theorem witness_SampledValuesComeFromTheStore_end : ∃ (s t : State) (j : Job) (f : Vector Byte 25), s.Inv ∧
    (s.port .tx).job = some j ∧ step s = .next t ∧ (t.port .tx).result = some (.okFrame f) :=
  ⟨withMove (.act .tx ⟨[], true⟩) encInProgress, _, _, _, withMove_inv _ encInProgress_inv, rfl, rfl, rfl⟩

/-- TX about to begin an `ENC` that samples `CH[3]` first, HOST about to write `CH[3]` and `CH[0]` before it
goes on. -/
def encBegins : State :=
  let zeros : Buf := Vector.replicate 255 0#8
  { State.reset with
    sched := [.act .tx ⟨[3], false⟩, .act .host ⟨[], true⟩, .act .host ⟨[], true⟩, .act .tx ⟨[], true⟩]
    ports := { State.reset.ports with
      tx := { PortState.idle with queue := [{ cw := encode .enc, buf := zeros }] }
      host := { PortState.idle with
        queue := [{ cw := encode (.set 3 7#11), buf := zeros }, { cw := encode (.set 0 9#11), buf := zeros }] } } }

/-- The state after `i` steps. -/
def after (s : State) (i : Nat) : State :=
  match i with
  | 0 => s
  | i + 1 =>
    match step (after s i) with
    | .next t => t
    | _ => s

/-- The old value of `CH[3]` and the new one of `CH[0]` in one frame (R65). -/
theorem witness_SampledValuesComeFromTheStore_run :
    IsRun (after encBegins) 4 ∧
    (∃ request, ((after encBegins 0).port .tx).queue = request :: ((after encBegins 1).port .tx).queue) ∧
    (∀ i, 1 ≤ i → i ≤ 3 → ((after encBegins i).port .tx).job.isSome = true) ∧
    ((after encBegins 4).port .tx).result = some (.okFrame (pack (neutral.set 0 9#11))) ∧
    (after encBegins 4).slots.ch = (neutral.set 0 9#11).set 3 7#11 := by
  refine ⟨fun i h => ?_, ⟨_, rfl⟩, fun i h h' => ?_, by decide +kernel, by decide +kernel⟩
  · have : i = 0 ∨ i = 1 ∨ i = 2 ∨ i = 3 := by omega
    rcases this with rfl | rfl | rfl | rfl <;> rfl
  · have : i = 1 ∨ i = 2 ∨ i = 3 := by omega
    rcases this with rfl | rfl | rfl <;> decide +kernel
/-- Both clauses of FreeTurnGoesToAPendingPort; the second also for EveryFreeStepMakesProgress and
EveryRequestedOpCompletes. -/
theorem witness_FreeTurnGoesToAPendingPort : (State.reset.sched = [] ∧ State.reset.pendingPorts = []) ∧
    encInProgress.sched = [] ∧ encInProgress.pendingPorts ≠ [] := by decide +kernel
theorem witness_EveryStepKeepsLegalStates : ∃ s t : State, s.Inv ∧ step s = .next t :=
  ⟨withMove (.act .tx ⟨[], true⟩) encInProgress, _, withMove_inv _ encInProgress_inv, rfl⟩
theorem witness_NoStepChangesTheParameters : ∃ s t : State, step s = .next t :=
  ⟨State.reset.withFetchWord 32 0x403FFFFF, _, rfl⟩

end Sys2Proof.Machine.Tests
end

section
/-! SUPPORT. What every op, every turn and every step leaves unchanged (20_memory.md R62, R63; 00_scope.md R9). -/

namespace Sys2Proof.Machine

/-! ### Frame of an op -/

/-- An op whose meaning changes only the port of the turn and the registers does so on a port that does not own
it too: there it is only answered. -/
theorem State.ifAccepted_onlyPort {s k t : State} {i : Instr} (hk : OnlyPort s.bus.port s k)
    (h : s.ifAccepted i k = .next t) : OnlyPort s.bus.port s t := by
  obtain ⟨-, e⟩ | ⟨-, e⟩ := s.ifAccepted_cases i k
  · cases e.symm.trans h
    exact hk
  · cases e.symm.trans h
    exact (s.answer_completes .illegal).frame

/-- Every op changes only the port of the turn and the registers. -/
theorem exec_onlyPort {i : Instr} {s t : State} (h : exec i s = .next t) :
    OnlyPort s.bus.port s t := by
  cases i with
  | nop => exact State.ifAccepted_onlyPort (i := .nop) (s.answer_completes .ok).frame h
  | get idx => exact State.ifAccepted_onlyPort (s.launch_onlyPort _ _) h
  | set idx val => exact State.ifAccepted_onlyPort (s.launch_onlyPort _ _) h
  | rstn => exact State.ifAccepted_onlyPort (s.launch_onlyPort _ _) h
  | poll keys => exact State.ifAccepted_onlyPort (s.launch_onlyPort _ _) h
  | enc => exact State.ifAccepted_onlyPort (s.launch_onlyPort _ _) h
  | dec len => exact State.ifAccepted_onlyPort (s.answer_completes _).frame h

/-- So does every command word, legal or not. -/
theorem runWord_onlyPort {w : Word} {s t : State} (h : runWord w s = .next t) :
    OnlyPort s.bus.port s t := by
  unfold runWord at h
  split at h
  · exact exec_onlyPort h
  · cases h
    exact (s.answer_completes .illegal).frame

/-! ### Frame of a turn -/

/-- A turn of a port changes no other port, nothing of the slot order still to come, and no parameter. -/
theorem turn_frame {p : Port} {b : Burst} {s t : State} (h : turn p b s = .next t) :
    (∀ q, q ≠ p → t.port q = s.port q) ∧ t.sched = s.sched ∧ t.tick = s.tick ∧
      t.params = s.params := by
  obtain ⟨-, rfl⟩ | ⟨-, -, rfl⟩ | ⟨request, rest, s', -, -, rfl, hrun⟩ := turn_cases h
  · obtain ⟨others, -, -, sched, tick, params⟩ := s.advance_onlyPort p b
    exact ⟨others, sched, tick, params⟩
  · exact ⟨fun _ _ => rfl, rfl, rfl, rfl⟩
  · obtain ⟨others, -, -, sched, tick, params⟩ := runWord_onlyPort hrun
    exact ⟨fun q hq => by simpa [hq] using others q hq, sched, tick, params⟩

/-! ### Steps -/

/-- Choosing what comes next takes from the slot order or the counter only. -/
theorem State.nextMove_frame {s s' : State} {m : Move} (h : s.nextMove = some (m, s')) :
    s'.slots = s.slots ∧ (∀ p, s'.port p = s.port p) ∧ s'.params = s.params := by
  obtain ⟨_, _, -, e⟩ | ⟨-, _, -, _, e⟩ | ⟨-, -, e⟩ := s.nextMove_cases
  · cases e.symm.trans h
    exact ⟨rfl, fun _ => rfl, rfl⟩
  · cases e.symm.trans h
    exact ⟨rfl, fun _ => rfl, rfl⟩
  · cases e.symm.trans h

/-- A step finds nothing to do, or is the hardware reset, or is a turn of a port. -/
theorem step_cases {s t : State} (h : step s = .next t) :
    (s.nextMove = none ∧ t = s) ∨
      (∃ s', s.nextMove = some (.reset, s') ∧ t = s'.hardReset) ∨
      ∃ p b s', s.nextMove = some (.act p b, s') ∧ turn p b s' = .next t := by
  unfold step at h
  split at h
  · exact .inl ⟨‹_›, (Host.Outcome.next.inj h).symm⟩
  · exact .inr (.inl ⟨_, ‹_›, (Host.Outcome.next.inj h).symm⟩)
  · exact .inr (.inr ⟨_, _, _, ‹_›, h⟩)

/-- Settles O58: neither the choice of the next move nor a reset nor a turn touches the parameters. -/
theorem noStepChangesTheParameters : Obligations.NoStepChangesTheParameters := by
  intro s t h
  obtain ⟨-, rfl⟩ | ⟨s', hmove, rfl⟩ | ⟨p, b, s', hmove, hturn⟩ := step_cases h
  · rfl
  · obtain ⟨-, -, params⟩ := State.nextMove_frame hmove
    exact params
  · obtain ⟨-, -, params⟩ := State.nextMove_frame hmove
    obtain ⟨-, -, -, params'⟩ := turn_frame hturn
    exact params'.trans params

end Sys2Proof.Machine
end

section
/-! SUPPORT. The legal states (10_state.md R27; 20_memory.md R66; 60_exceptions.md R241): what keeps the switch
positions legal, what an op in progress may be about to do, and that every step keeps both. -/

namespace Sys2Proof.Machine

/-! ### Legal ops in progress -/

/-- What an op in progress on port `p` may still have before it: writes of legal positions (R27), and only the
events of that port (R241). -/
structure Job.LegalOn (p : Port) (j : Job) : Prop where
  pos : j.allEvents SlotEvent.writesLegalPos = true
  lane : j.allEvents (SlotEvent.allowedOn p) = true

/-! ### Legal switch positions are kept (R27) -/

/-- The position after any position, the unreachable one included, is 1, 2 or 3. -/
theorem nextPos_ne_zero (s : Pos) : nextPos s ≠ 0#2 := by revert s; decide

theorem Slots.SwLegal.setSw {sl : Slots} (h : sl.SwLegal) (j : Fin 11) {p : Pos} (hp : p ≠ 0#2) :
    (sl.setSw j p).SwLegal := by
  intro j'
  rw [Slots.getSw_setSw]
  split
  · exact hp
  · exact h j'

theorem Slots.swLegal_resetToNeutral (sl : Slots) : sl.resetToNeutral.SwLegal := by
  intro j
  rw [Slots.getSw_resetToNeutral]
  decide

theorem Slots.swLegal_reset : Slots.reset.SwLegal :=
  Slots.swLegal_resetToNeutral Slots.reset

theorem Slots.SwLegal.tog {sl : Slots} (h : sl.SwLegal) (keys : BitVec 22) (j : Fin 11) :
    (sl.tog keys j).SwLegal := by
  have hedge : (sl.edge keys (.tog j)).SwLegal := fun j' => by simpa using h j'
  simp only [Slots.tog]
  split
  · exact hedge.setSw j (nextPos_ne_zero _)
  · exact hedge

theorem Slots.SwLegal.krst {sl : Slots} (h : sl.SwLegal) (keys : BitVec 22) :
    (sl.krst keys).SwLegal := by
  cases hf : sl.fires keys .rst
  · rw [Slots.krst_of_not_fires sl keys hf]
    exact fun j => by simpa using h j
  · rw [Slots.krst_of_fires sl keys hf]
    exact Slots.swLegal_resetToNeutral _

/-! ### What each action keeps, a tick keeps (R147) -/

/-- A property of the slots that `STEP`, `SNAP` and `TOG` keep is kept by the 16 actions other than `KRST`. -/
theorem Slots.mapActions_induction {P : Slots → Prop} {keys : BitVec 22}
    (hstep : ∀ sl k, P sl → P (sl.step keys k)) (hsnap : ∀ sl, P sl → P (sl.snap keys))
    (htog : ∀ sl j, P sl → P (sl.tog keys j)) {sl : Slots} (h : P sl) : P (sl.mapActions keys) := by
  have hsteps : P ((List.finRange 4).foldl (fun sl k => sl.step keys k) sl) :=
    List.foldlRecOn _ _ h fun sl hsl k _ => hstep sl k hsl
  exact List.foldlRecOn _ _ (hsnap _ hsteps) fun sl hsl j _ => htog sl j hsl

theorem Slots.SwLegal.mapActions {sl : Slots} (h : sl.SwLegal) (keys : BitVec 22) :
    (sl.mapActions keys).SwLegal :=
  Slots.mapActions_induction (P := Slots.SwLegal) (fun sl k hsl j => by simpa using hsl j)
    (fun sl hsl j => by simpa using hsl j) (fun _ j hsl => hsl.tog keys j) h

/-- A tick keeps the switch positions legal, under both settings of `P_RESET_ORDER`. -/
theorem Slots.SwLegal.pollTick {sl : Slots} (h : sl.SwLegal) (order : ResetOrder) (keys : BitVec 22) :
    (sl.pollTick order keys).SwLegal := by
  cases order with
  | last => exact (h.mapActions keys).krst keys
  | first => exact (h.krst keys).mapActions keys

/-! ### Slot events -/

/-- A slot event that writes no illegal position keeps the positions legal. -/
theorem SlotEvent.perform_swLegal {e : SlotEvent} {sl : Slots} (he : e.writesLegalPos = true)
    (h : sl.SwLegal) (t : Vector Chan 16) : (e.perform sl t).slots.SwLegal := by
  cases e with
  | writeSw j p => exact h.setSw j (by simpa [SlotEvent.writesLegalPos] using he)
  | _ => exact h

/-- The writes of `reset_to_neutral` put legal positions into `SW`, and MAP and HOST may do them. -/
theorem neutralWrites_legal : ∀ e ∈ neutralWrites,
    e.writesLegalPos = true ∧ e.allowedOn .map = true ∧ e.allowedOn .host = true := by decide

/-- The events that depend on a read are MAP's, and they write legal positions only. -/
theorem SlotEvent.more_legal (e : SlotEvent) (sl : Slots) (t : Vector Chan 16) :
    ∀ d ∈ (e.perform sl t).more, d.writesLegalPos = true ∧ d.allowedOn .map = true := by
  cases e with
  | stepRead k dir =>
    simp only [SlotEvent.perform]
    split <;> simp [SlotEvent.writesLegalPos, SlotEvent.allowedOn]
  | edgeRead key =>
    simp only [SlotEvent.perform]
    split
    · simp
    · cases key with
      | tog j => simp [EdgeKey.fired, SlotEvent.writesLegalPos, SlotEvent.allowedOn]
      | rst =>
        intro d hd
        rcases List.mem_cons.mp hd with rfl | hd
        · exact ⟨rfl, rfl⟩
        · obtain ⟨hpos, hmap, -⟩ := neutralWrites_legal d hd
          exact ⟨hpos, hmap⟩
  | togRead j => simp [SlotEvent.perform, SlotEvent.writesLegalPos, SlotEvent.allowedOn, nextPos_ne_zero]
  | _ => simp [SlotEvent.perform]

/-- Away from MAP no event that a port may have is one that others depend on. -/
theorem SlotEvent.more_eq_nil_of_allowedOn {p : Port} {e : SlotEvent} (hp : p ≠ .map)
    (he : e.allowedOn p = true) (sl : Slots) (t : Vector Chan 16) : (e.perform sl t).more = [] := by
  cases e with
  | stepRead | edgeRead | togRead => cases p <;> simp_all [SlotEvent.allowedOn]
  | _ => rfl

/-- The events that depend on an event of a port's op are events of that port too. -/
theorem SlotEvent.more_allowedOn {p : Port} {e : SlotEvent} (he : e.allowedOn p = true) (sl : Slots)
    (t : Vector Chan 16) : (e.perform sl t).more.all (SlotEvent.allowedOn p) = true := by
  by_cases hp : p = .map
  · subst hp
    exact List.all_eq_true.mpr fun d hd => (e.more_legal sl t d hd).2
  · rw [SlotEvent.more_eq_nil_of_allowedOn hp he]
    rfl

/-! ### Ops in progress -/

/-- One event of an op does to the registers what one of its pending events does, or nothing is left to do. -/
theorem Job.event_slots {f : SlotEvent → Bool} (n : Nat) (x : Slots × Job) (h : x.2.allEvents f = true) :
    (Job.event n x).1 = x.1 ∨
      ∃ e, f e = true ∧ (Job.event n x).1 = (e.perform x.1 x.2.samples).slots := by
  obtain ⟨sl, ret, t, stages⟩ := x
  cases stages with
  | nil => exact .inl rfl
  | cons st rest =>
    have hi : n % (st.first :: st.others).length < (st.first :: st.others).length :=
      Nat.mod_lt _ (by simp)
    obtain ⟨hst, -⟩ := Bool.and_eq_true_iff.mp (List.all_cons.symm.trans h)
    refine .inr ⟨_, List.all_eq_true.mp hst _ (List.getElem_mem hi), ?_⟩
    simp only [Job.event, List.getD_eq_getElem _ _ hi]

/-- A burst of a legal op leaves legal positions and a legal op. -/
theorem Job.run_legal {p : Port} (b : Burst) {x : Slots × Job} (hsl : x.1.SwLegal) (hj : x.2.LegalOn p) :
    (Job.run b x).1.SwLegal ∧ (Job.run b x).2.LegalOn p := by
  refine Job.run_induction (P := fun y => y.1.SwLegal ∧ y.2.LegalOn p) ?_ b x ⟨hsl, hj⟩
  rintro n y ⟨hsl, hpos, hlane⟩
  refine ⟨?_, Job.allEvents_event ?_ n y hpos, Job.allEvents_event ?_ n y hlane⟩
  · obtain heq | ⟨e, he, heq⟩ := Job.event_slots n y hpos
    · rwa [heq]
    · rw [heq]
      exact SlotEvent.perform_swLegal he hsl _
  · exact fun e sl t _ => List.all_eq_true.mpr fun d hd => (e.more_legal sl t d hd).1
  · exact fun e sl t he => SlotEvent.more_allowedOn he sl t

/-! ### Ops at their beginning -/

theorem Job.allEvents_start (f : SlotEvent → Bool) (ret : Ret) (stages : List Stage) :
    (Job.start ret stages).allEvents f = stages.all fun st => (st.first :: st.others).all f := rfl

/-- The stage of a list of events holds exactly those events. -/
theorem Stage.all_ofList (f : SlotEvent → Bool) (es : List SlotEvent) :
    ((Stage.ofList es).all fun st => (st.first :: st.others).all f) = es.all f := by
  cases es with
  | nil => rfl
  | cons e es => exact Bool.and_true _

/-- A property of the events the actions of a tick begin with is one of all stages of the tick. -/
theorem pollStages_all {f : SlotEvent → Bool} {keys : BitVec 22}
    (hstep : ∀ k, (stepEvents keys k).all f = true) (hsnap : (snapEvents keys).all f = true)
    (hedge : ∀ key, (edgeEvents keys key).all f = true) (order : ResetOrder) :
    ((pollStages order keys).all fun st => (st.first :: st.others).all f) = true := by
  have hmap : ((mapStages keys).all fun st => (st.first :: st.others).all f) = true := by
    simp only [mapStages, List.all_append, List.all_flatMap, Stage.all_ofList, hstep, hsnap, hedge]
    decide
  cases order with
  | last => rw [pollStages, List.all_append, hmap, Stage.all_ofList, hedge, Bool.and_self]
  | first => rw [pollStages, List.all_append, hmap, Stage.all_ofList, hedge, Bool.and_self]

/-- A `POLL` begins with MAP's events, and none of them writes a position. -/
theorem Job.legalOn_poll (order : ResetOrder) (keys : BitVec 22) :
    (Job.start .done (pollStages order keys)).LegalOn .map := by
  have hall : ∀ f : SlotEvent → Bool, (∀ k dir, f (.stepRead k dir) = true) →
      (∀ key, f (.edgeRead key) = true) → (∀ k v, f (.writeCh k v) = true) →
      (∀ m b, f (.writeLatch m b) = true) → (Job.start .done (pollStages order keys)).allEvents f = true := by
    intro f hstep hedge hch hlatch
    refine pollStages_all (fun k => ?_) ?_ (fun key => ?_) order
    · unfold stepEvents
      split <;> simp [hstep]
    · unfold snapEvents
      split <;> simp [hch]
    · unfold edgeEvents
      split <;> simp [hedge, hlatch]
  constructor <;> exact hall _ (fun _ _ => rfl) (fun _ => rfl) (fun _ _ => rfl) (fun _ _ => rfl)

/-- A `RSTN` begins with the writes of `reset_to_neutral`. -/
theorem Job.legalOn_rstn : (Job.start .done (Stage.ofList neutralWrites)).LegalOn .host := by
  constructor <;> rw [Job.allEvents_start, Stage.all_ofList, List.all_eq_true]
  · exact fun e he => (neutralWrites_legal e he).1
  · exact fun e he => (neutralWrites_legal e he).2.2

/-- An `ENC` begins with its 16 reads. -/
theorem Job.legalOn_enc : (Job.start .frame (Stage.ofList encodeReads)).LegalOn .tx := by
  constructor <;> rw [Job.allEvents_start, Stage.all_ofList, encodeReads, List.all_map] <;>
    exact List.all_eq_true.mpr fun _ _ => rfl

/-! ### Legal states -/

/-- A state is legal when the switch positions are, and every op in progress is, is there only without
`P_ATOMIC_OPS`, and has returned no result. -/
theorem State.inv_iff (s : State) : s.Inv ↔ s.slots.SwLegal ∧ ∀ p j, (s.port p).job = some j →
    j.LegalOn p ∧ s.params.atomicOps = false ∧ (s.port p).result = none := by
  constructor
  · rintro ⟨hsw, hpos, hlane, hatomic, hresult⟩
    refine ⟨hsw, fun p j hj => ⟨⟨?_, ?_⟩, ?_, hresult p (by simp [hj])⟩⟩
    · simpa [State.jobEvents, hj] using hpos p
    · simpa [State.jobEvents, hj] using hlane p
    · exact Bool.eq_false_iff.mpr fun ha => by simp [hatomic ha p] at hj
  · rintro ⟨hsw, hjobs⟩
    refine ⟨hsw, fun p => ?_, fun p => ?_, fun ha p => ?_, fun p hp => ?_⟩
    · unfold State.jobEvents
      split
      · rfl
      · exact (hjobs p _ ‹_›).1.pos
    · unfold State.jobEvents
      split
      · rfl
      · exact (hjobs p _ ‹_›).1.lane
    · refine Option.eq_none_iff_forall_ne_some.mpr fun j hj => ?_
      simp [(hjobs p j hj).2.1] at ha
    · obtain ⟨j, hj⟩ := Option.isSome_iff_exists.mp hp
      exact (hjobs p j hj).2.2

/-- With no op in progress a state is legal when the switch positions are. -/
theorem State.inv_of_no_job {s : State} (hsw : s.slots.SwLegal) (hjob : ∀ p, (s.port p).job = none) :
    s.Inv :=
  s.inv_iff.mpr ⟨hsw, fun p j hj => by simp [hjob p] at hj⟩

/-- What changes registers and one port only keeps legal states when it leaves these two legal. -/
theorem State.Inv.of_frame {s t : State} (h : s.Inv) {p : Port} (hsw : t.slots.SwLegal)
    (hparams : t.params = s.params) (hothers : ∀ q, q ≠ p → t.port q = s.port q)
    (hown : ∀ j, (t.port p).job = some j →
      j.LegalOn p ∧ s.params.atomicOps = false ∧ (t.port p).result = none) : t.Inv := by
  obtain ⟨-, hjobs⟩ := s.inv_iff.mp h
  refine t.inv_iff.mpr ⟨hsw, fun q j hj => ?_⟩
  rw [hparams]
  by_cases hq : q = p
  · subst hq
    exact hown j hj
  · rw [hothers q hq] at hj ⊢
    exact hjobs q j hj

/-- An op that completes keeps legal states when it leaves legal positions. -/
theorem State.Inv.of_completes {s t : State} (h : s.Inv) {sl : Slots} {r : OpResult}
    (hc : Completes s t sl r) (hsw : sl.SwLegal) : t.Inv :=
  h.of_frame (hc.slots ▸ hsw) hc.frame.params hc.frame.others fun j hj => by simp [hc.job] at hj

theorem State.Inv.answer {s : State} (h : s.Inv) (r : OpResult) : (s.answer r).Inv :=
  h.of_completes (s.answer_completes r) h.swLegal

theorem State.Inv.withSlots {s : State} (h : s.Inv) {sl : Slots} (hsw : sl.SwLegal) :
    ({ s with slots := sl } : State).Inv :=
  ⟨hsw, h.pendingLegal, h.inLane, h.atomicIdle, h.noEarlyResult⟩

/-! ### The shared operations keep legal states -/

theorem State.Inv.settle {s : State} (h : s.Inv) {p : Port} {x : Slots × Job} (hsw : x.1.SwLegal)
    (hj : x.2.LegalOn p) (hatomic : s.params.atomicOps = false) : (s.settle p x).Inv := by
  refine h.of_frame hsw rfl (s.settle_onlyPort p x).others fun j hjob => ?_
  by_cases hdone : x.2.stages = []
  · simp [State.settle_port_done s p x hdone] at hjob
  · rw [State.settle_port_parked s p x hdone] at hjob ⊢
    exact ⟨Option.some.inj hjob ▸ hj, hatomic, rfl⟩

/-- Beginning an op keeps legal states when its first events are legal and the one transition that does all of
it leaves legal positions. -/
theorem State.Inv.launch {s : State} (h : s.Inv) {job : Job} {a : Slots × OpResult}
    (hj : job.LegalOn s.bus.port) (ha : a.1.SwLegal) : (s.launch job a).Inv := by
  unfold State.launch
  split
  · exact (h.withSlots ha).answer a.2
  · obtain ⟨hsw, hrun⟩ := Job.run_legal s.bus.burst (x := (s.slots, job)) h.swLegal hj
    exact h.settle hsw hrun (Bool.eq_false_iff.mpr ‹_›)

/-- So does going on with one: with `P_ATOMIC_OPS` there is none to go on with. -/
theorem State.Inv.advance {s : State} (h : s.Inv) (p : Port) (b : Burst) : (s.advance p b).Inv := by
  unfold State.advance
  split
  · exact h
  · obtain ⟨-, hjobs⟩ := s.inv_iff.mp h
    obtain ⟨hj, hatomic, -⟩ := hjobs p _ ‹_›
    obtain ⟨hsw, hrun⟩ := Job.run_legal (if s.params.atomicOps then { b with whole := true } else b)
      (x := (s.slots, _)) h.swLegal hj
    exact h.settle hsw hrun hatomic

theorem State.Inv.ifAccepted {s k t : State} {i : Instr} (h : s.Inv)
    (hk : i.acceptedOn s.bus.port = true → k.Inv) (ht : s.ifAccepted i k = .next t) : t.Inv := by
  obtain ⟨hacc, e⟩ | ⟨-, e⟩ := s.ifAccepted_cases i k
  · cases e.symm.trans ht
    exact hk hacc
  · cases e.symm.trans ht
    exact h.answer .illegal

/-! ### Ops, turns and steps keep legal states -/

/-- Every op keeps legal states, however far it gets. -/
theorem State.Inv.exec {s t : State} {i : Instr} (h : s.Inv) (ht : exec i s = .next t) : t.Inv := by
  cases i with
  | nop => exact h.ifAccepted (i := .nop) (fun _ => h.answer .ok) ht
  | get idx =>
    refine h.ifAccepted (i := .get idx) (fun hacc => h.launch ?_ h.swLegal) ht
    rw [show s.bus.port = .host from eq_of_beq hacc]
    exact ⟨rfl, rfl⟩
  | set idx val =>
    refine h.ifAccepted (i := .set idx val) (fun hacc => h.launch ?_ h.swLegal) ht
    rw [show s.bus.port = .host from eq_of_beq hacc]
    exact ⟨rfl, rfl⟩
  | rstn =>
    refine h.ifAccepted (i := .rstn) (fun hacc => h.launch ?_ s.slots.swLegal_resetToNeutral) ht
    rw [show s.bus.port = .host from eq_of_beq hacc]
    exact Job.legalOn_rstn
  | poll keys =>
    refine h.ifAccepted (i := .poll keys) (fun hacc => h.launch ?_ (h.swLegal.pollTick _ keys)) ht
    rw [show s.bus.port = .map from eq_of_beq hacc]
    exact Job.legalOn_poll _ keys
  | enc =>
    refine h.ifAccepted (i := .enc) (fun hacc => h.launch ?_ h.swLegal) ht
    rw [show s.bus.port = .tx from eq_of_beq hacc]
    exact Job.legalOn_enc
  | dec len => exact h.ifAccepted (i := .dec len) (fun _ => h.answer _) ht

theorem State.Inv.runWord {s t : State} {w : Word} (h : s.Inv) (ht : runWord w s = .next t) : t.Inv := by
  unfold Machine.runWord at ht
  split at ht
  · exact h.exec ht
  · cases ht
    exact h.answer .illegal

theorem State.Inv.turn {s t : State} {p : Port} {b : Burst} (h : s.Inv) (ht : turn p b s = .next t) :
    t.Inv := by
  obtain ⟨-, rfl⟩ | ⟨-, -, rfl⟩ | ⟨request, rest, s', -, -, rfl, hrun⟩ := turn_cases ht
  · exact h.advance p b
  · exact h
  · refine State.Inv.runWord ?_ hrun
    exact h.of_frame (p := p) h.swLegal rfl (fun q hq => by simp [hq]) fun j hj => by simp at hj

/-- The hardware reset makes any state legal (R260, R262). -/
theorem State.hardReset_inv (s : State) : s.hardReset.Inv :=
  State.inv_of_no_job Slots.swLegal_reset fun p => by simp

/-- Settles O57: a step changes nothing, or is the hardware reset, or is a turn of a port; choosing it changes
nothing that legality speaks of. -/
theorem everyStepKeepsLegalStates : Obligations.EveryStepKeepsLegalStates := by
  intro s t h ht
  obtain ⟨-, rfl⟩ | ⟨s', -, rfl⟩ | ⟨p, b, s', hmove, hturn⟩ := step_cases ht
  · exact h
  · exact s'.hardReset_inv
  · obtain ⟨hslots, hports, hparams⟩ := State.nextMove_frame hmove
    have h' : s'.Inv := by
      rw [State.inv_iff, hslots, hparams]
      simpa only [hports] using s.inv_iff.mp h
    exact h'.turn hturn

end Sys2Proof.Machine
end

section
/-! SUPPORT. The reset values (10_state.md R35, 70_reset_and_hazards.md R260), read slot by slot. -/

namespace Sys2Proof.Machine

/-- `NEUTRAL` (R7): the stepping channels and channel 6 are centred, the discrete channels are at position 1. -/
theorem neutral_getElem (k : Fin 16) :
    neutral[k] = if k.val < 4 ∨ k.val = 5 then 1000#11 else 500#11 := by revert k; decide

@[simp] theorem Slots.getCh_reset (k : Fin 16) : Slots.reset.getCh k = neutral[k] := rfl

@[simp] theorem Slots.getSw_reset (j : Fin 11) : Slots.reset.getSw j = swNeutral := by
  simp [Slots.getSw, Slots.reset]

@[simp] theorem Slots.getLatch_reset (m : Fin 12) : Slots.reset.getLatch m = false := by
  simp [Slots.getLatch, Slots.reset]

@[simp] theorem State.reset_port (p : Port) : State.reset.port p = PortState.idle := by
  cases p <;> rfl

/-- Settles O1: the registers are read slot by slot, and every port is idle. -/
theorem resetLeavesTheTableValues : Obligations.ResetLeavesTheTableValues := by
  refine ⟨fun k => ?_, fun j => ?_, fun m => ?_, fun p => ?_⟩
  · exact (Slots.getCh_reset k).trans (neutral_getElem k)
  · exact Slots.getSw_reset j
  · exact Slots.getLatch_reset m
  · rw [State.reset_port]
    rfl

/-- Settles O56: no op is in progress after reset, and every switch is at position 1. -/
theorem resetStateIsLegal : Obligations.ResetStateIsLegal :=
  State.inv_of_no_job Slots.swLegal_reset fun p => by rw [State.reset_port]; rfl

end Sys2Proof.Machine
end

section
/-! SUPPORT. The coupling of a switch slot and its channel (10_state.md R28): what the actions of one tick do to
the three slots a toggle key works on (41_input_mapper.md R145, R147). -/

namespace Sys2Proof.Machine

/-! ### The slots of one toggle key -/

/-- The slots that `TOG` of slot `j` reads and writes hold the same in both: switch position, channel, latch. -/
structure Slots.SameToggle (j : Fin 11) (a b : Slots) : Prop where
  sw : a.getSw j = b.getSw j
  ch : a.getCh (swch j) = b.getCh (swch j)
  latch : a.getLatch (EdgeKey.tog j).latch = b.getLatch (EdgeKey.tog j).latch

theorem Slots.SameToggle.refl (j : Fin 11) (sl : Slots) : Slots.SameToggle j sl sl := ⟨rfl, rfl, rfl⟩

theorem Slots.SameToggle.trans {j : Fin 11} {a b c : Slots} (h : Slots.SameToggle j a b)
    (h' : Slots.SameToggle j b c) : Slots.SameToggle j a c :=
  ⟨h.sw.trans h'.sw, h.ch.trans h'.ch, h.latch.trans h'.latch⟩

theorem Slots.SameToggle.coupled_iff {j : Fin 11} {a b : Slots} (h : Slots.SameToggle j a b) :
    a.Coupled j ↔ b.Coupled j := by
  rw [Slots.Coupled, Slots.Coupled, h.sw, h.ch]

theorem Slots.SameToggle.fires_eq {j : Fin 11} {a b : Slots} (h : Slots.SameToggle j a b)
    (keys : BitVec 22) : a.fires keys (.tog j) = b.fires keys (.tog j) :=
  Slots.fires_congr keys (.tog j) h.latch

/-! ### The other actions leave them (R147) -/

theorem Slots.sameToggle_step (sl : Slots) (keys : BitVec 22) (k : Fin 4) (j : Fin 11) :
    Slots.SameToggle j (sl.step keys k) sl :=
  ⟨sl.getSw_step keys k j, sl.getCh_step_ne keys (swch_ne_stepCh j k), sl.getLatch_step keys k _⟩

theorem Slots.sameToggle_snap (sl : Slots) (keys : BitVec 22) (j : Fin 11) :
    Slots.SameToggle j (sl.snap keys) sl :=
  ⟨sl.getSw_snap keys j, sl.getCh_snap_ne keys (swch_ne_snapCh j), sl.getLatch_snap keys _⟩

theorem Slots.sameToggle_edge (sl : Slots) (keys : BitVec 22) {key : EdgeKey} {j : Fin 11}
    (h : key ≠ .tog j) : Slots.SameToggle j (sl.edge keys key) sl :=
  ⟨sl.getSw_edge keys key j, sl.getCh_edge keys key _,
    sl.getLatch_edge_ne keys fun hl => h (EdgeKey.latch_injective.mp hl).symm⟩

theorem Slots.sameToggle_tog (sl : Slots) (keys : BitVec 22) {j j' : Fin 11} (h : j' ≠ j) :
    Slots.SameToggle j (sl.tog keys j') sl where
  sw := sl.getSw_tog_ne keys h.symm
  ch := sl.getCh_tog_ne keys fun hc => h (swch_injective.mp hc).symm
  latch := by
    rw [Slots.getLatch_tog]
    exact (sl.sameToggle_edge keys fun hk => h (EdgeKey.tog.inj hk)).latch

/-- A sequence of actions that each leave the slots of one toggle key leaves them. -/
theorem Slots.sameToggle_foldl {ι : Type} {j : Fin 11} (act : Slots → ι → Slots) (l : List ι)
    (h : ∀ sl, ∀ i ∈ l, Slots.SameToggle j (act sl i) sl) (sl : Slots) :
    Slots.SameToggle j (l.foldl act sl) sl :=
  List.foldlRecOn l act (motive := fun sl' => Slots.SameToggle j sl' sl) (.refl j sl)
    fun sl' hsl' i hi => (h sl' i hi).trans hsl'

/-! ### The other 16 actions leave the latch of the reset key -/

theorem Slots.getLatch_mapActions_rst (sl : Slots) (keys : BitVec 22) :
    (sl.mapActions keys).getLatch EdgeKey.rst.latch = sl.getLatch EdgeKey.rst.latch := by
  refine Slots.mapActions_induction (P := fun sl' => sl'.getLatch _ = sl.getLatch EdgeKey.rst.latch)
    (fun sl' k h => ?_) (fun sl' h => ?_) (fun sl' j h => ?_) rfl
  · rwa [Slots.getLatch_step]
  · rwa [Slots.getLatch_snap]
  · rwa [Slots.getLatch_tog, Slots.getLatch_edge_ne sl' keys]
    exact fun hl => EdgeKey.noConfusion (EdgeKey.latch_injective.mp hl)

/-! ### `TOG` of one slot in a tick -/

/-- Among the 16 actions `TOG` of slot `j` works as on its own: the others leave its slots as they are. -/
theorem Slots.mapActions_tog (sl : Slots) (keys : BitVec 22) (j : Fin 11) :
    ∃ sl', Slots.SameToggle j sl' sl ∧ Slots.SameToggle j (sl.mapActions keys) (sl'.tog keys j) := by
  obtain ⟨before, after, hsplit⟩ := List.append_of_mem (List.mem_finRange j)
  obtain ⟨-, hafter, hbefore⟩ := List.nodup_append.mp (hsplit ▸ List.nodup_finRange 11)
  have hne : ∀ i ∈ before, i ≠ j := fun i hi => hbefore i hi j List.mem_cons_self
  have hne' : ∀ i ∈ after, i ≠ j := by
    rintro i hi rfl
    exact (List.nodup_cons.mp hafter).1 hi
  let steps := (List.finRange 4).foldl (fun sl k => sl.step keys k) sl
  have hsteps : Slots.SameToggle j (steps.snap keys) sl :=
    (steps.sameToggle_snap keys j).trans
      (Slots.sameToggle_foldl _ _ (fun sl k _ => sl.sameToggle_step keys k j) sl)
  refine ⟨before.foldl (fun sl i => sl.tog keys i) (steps.snap keys), ?_, ?_⟩
  · exact (Slots.sameToggle_foldl _ _ (fun sl i hi => sl.sameToggle_tog keys (hne i hi)) _).trans hsteps
  · simp only [Slots.mapActions, hsplit, List.foldl_append, List.foldl_cons]
    exact Slots.sameToggle_foldl _ _ (fun sl i hi => sl.sameToggle_tog keys (hne' i hi)) _

/-! ### Coupling -/

/-- `TOG` that fires couples its slot and channel, whatever they held (R145). -/
theorem Slots.coupled_tog_of_fires {sl : Slots} {keys : BitVec 22} {j : Fin 11}
    (h : sl.fires keys (.tog j) = true) : (sl.tog keys j).Coupled j := by
  have hself := sl.tog_self keys j
  rw [if_pos h] at hself
  obtain ⟨hsw, hch⟩ := Prod.mk.inj hself
  rw [Slots.Coupled, hsw, hch]

/-- So do the 16 actions other than `KRST`. -/
theorem Slots.coupled_mapActions_of_fires {sl : Slots} {keys : BitVec 22} {j : Fin 11}
    (h : sl.fires keys (.tog j) = true) : (sl.mapActions keys).Coupled j := by
  obtain ⟨sl', hbefore, hafter⟩ := sl.mapActions_tog keys j
  exact hafter.coupled_iff.mpr (Slots.coupled_tog_of_fires ((hbefore.fires_eq keys).trans h))

/-- And so does a tick in which the reset does not fire, where `KRST` only samples its own latch. -/
theorem Slots.coupled_pollTick_of_fires {sl : Slots} {keys : BitVec 22} {j : Fin 11} (order : ResetOrder)
    (hrst : sl.fires keys .rst = false) (h : sl.fires keys (.tog j) = true) :
    (sl.pollTick order keys).Coupled j := by
  have hedge : ∀ sl : Slots, Slots.SameToggle j (sl.edge keys .rst) sl :=
    fun sl => sl.sameToggle_edge keys EdgeKey.noConfusion
  cases order with
  | last =>
    have hrst' : (sl.mapActions keys).fires keys .rst = false :=
      (Slots.fires_congr keys .rst (sl.getLatch_mapActions_rst keys)).trans hrst
    rw [Slots.pollTick, Slots.krst_of_not_fires _ keys hrst']
    exact (hedge _).coupled_iff.mpr (Slots.coupled_mapActions_of_fires h)
  | first =>
    rw [Slots.pollTick, Slots.krst_of_not_fires _ keys hrst]
    exact Slots.coupled_mapActions_of_fires (((hedge sl).fires_eq keys).trans h)

/-- The neutral configuration is coupled (R28). -/
theorem Slots.coupled_resetToNeutral (sl : Slots) (j : Fin 11) : sl.resetToNeutral.Coupled j := by
  have hneutral : ∀ j, neutral[swch j] = swValue swNeutral := by decide
  rw [Slots.Coupled, Slots.getCh_resetToNeutral, Slots.getSw_resetToNeutral, hneutral]

/-- Settles O22: the press edge by `TOG`'s place in the tick; the reset registers are neutral ones. -/
theorem couplingIsRestored : Obligations.CouplingIsRestored :=
  ⟨fun _ order _ _ hrst h => Slots.coupled_pollTick_of_fires order hrst h,
    Slots.coupled_resetToNeutral, Slots.coupled_resetToNeutral Slots.reset⟩

end Sys2Proof.Machine
end

section
/-! SUPPORT. A command word: what the decoder makes of an op's own word (30_encoding.md R91 to R96), and how a step
comes to run it (R90, 20_memory.md R63). -/

namespace Sys2Proof

/-! ### The word of an op -/

/-- Op, zero field and operand are cut out of a word where they were put. -/
theorem extractLsb'_fields {z n : Nat} (op : BitVec 4) (zero : BitVec z) (operand : BitVec n) :
    (op ++ zero ++ operand).extractLsb' (z + n) 4 = op ∧
      (op ++ zero ++ operand).extractLsb' n z = zero ∧
      (op ++ zero ++ operand).extractLsb' 0 n = operand := by
  refine ⟨?_, ?_, BitVec.extractLsb'_append_eq_right⟩
  · rw [BitVec.extractLsb'_append_eq_of_le (Nat.le_add_left n z), Nat.add_sub_cancel,
      BitVec.extractLsb'_append_eq_left]
  · rw [BitVec.extractLsb'_append_eq_of_le le_rfl, Nat.sub_self, BitVec.extractLsb'_append_eq_right]

/-- Every op is what its own word decodes to: the op field is its own, the zero field is zero, and each operand is
cut out where it was put (R96 to R98). -/
theorem decode_encode (i : Instr) : decode (encode i) = .ok i := by
  cases i with
  | nop => rfl
  | get idx =>
    obtain ⟨hop, hzero, hidx⟩ : opField (encode (.get idx)) = 0x1#4 ∧
        (encode (.get idx)).extractLsb' 4 24 = 0#24 ∧
        (encode (.get idx)).extractLsb' 0 4 = BitVec.ofFin idx := extractLsb'_fields _ _ _
    simp only [decode, hop, hzero, hidx]
    rfl
  | set idx val =>
    obtain ⟨hop, hzero, hidx⟩ := extractLsb'_fields 0x2#4 0#13 (BitVec.ofFin (w := 4) idx)
    replace hop : opField (encode (.set idx val)) = 0x2#4 :=
      (BitVec.extractLsb'_append_eq_of_le (by decide)).trans hop
    replace hzero : (encode (.set idx val)).extractLsb' 15 13 = 0#13 :=
      (BitVec.extractLsb'_append_eq_of_le (by decide)).trans hzero
    replace hidx : (encode (.set idx val)).extractLsb' 11 4 = BitVec.ofFin idx :=
      (BitVec.extractLsb'_append_eq_of_le (by decide)).trans hidx
    have hval : (encode (.set idx val)).extractLsb' 0 11 = val := BitVec.extractLsb'_append_eq_right
    simp only [decode, hop, hzero, hidx, hval]
    rfl
  | rstn => rfl
  | poll keys =>
    obtain ⟨hop, hzero, hkeys⟩ : opField (encode (.poll keys)) = 0x4#4 ∧
        (encode (.poll keys)).extractLsb' 22 6 = 0#6 ∧
        (encode (.poll keys)).extractLsb' 0 22 = keys := extractLsb'_fields _ _ _
    simp only [decode, hop, hzero, hkeys]
    rfl
  | enc => rfl
  | dec len =>
    obtain ⟨hop, hzero, hlen⟩ : opField (encode (.dec len)) = 0x6#4 ∧
        (encode (.dec len)).extractLsb' 8 20 = 0#20 ∧
        (encode (.dec len)).extractLsb' 0 8 = len := extractLsb'_fields _ _ _
    simp only [decode, hop, hzero, hlen]
    rfl

/-- The port an agent presents an op's word on owns the op (R96). -/
theorem acceptedOn_portOfWord (i : Instr) : i.acceptedOn (portOfWord (encode i)) = true := by
  cases i with
  | nop => exact Laws.OwningPort.nop
  | get idx => exact Laws.OwningPort.get idx
  | set idx val => exact Laws.OwningPort.set idx val
  | rstn => exact Laws.OwningPort.rstn
  | poll keys => exact Laws.OwningPort.poll keys
  | enc => exact Laws.OwningPort.enc
  | dec len => exact Laws.OwningPort.dec len

/-- A command word is the one its 32 bits write out. -/
theorem commandWord_toNat (w : Word) : commandWord 32 w.toNat = w := by
  rw [commandWord, Nat.mod_eq_of_lt w.isLt, BitVec.ofNat_toNat, BitVec.setWidth_eq]

end Sys2Proof

namespace Sys2Proof.Machine

/-! ### From a step to an op -/

/-- A step performs the turn the slot order lays down. -/
theorem step_of_act {s : State} {p : Port} {b : Burst} {rest : List Move} (h : s.sched = .act p b :: rest) :
    step s = turn p b { s with sched := rest } := by
  simp only [step, State.nextMove, h]

/-- A turn of an idle port takes the next request of its agent (R63). -/
theorem turn_of_request {s : State} {p : Port} {r : Request} {q : List Request} (b : Burst)
    (hjob : (s.port p).job = none) (hqueue : (s.port p).queue = r :: q) :
    turn p b s = runWord r.cw ({ s with bus := { port := p, buf := r.buf, burst := b } }.setPort p
      { queue := q, job := none, result := none }) := by
  simp only [turn, State.present, hjob, hqueue, Option.isSome_none, Bool.false_eq_true, if_false]

/-- A legal word runs its op (R90). -/
theorem runWord_of_decode {w : Word} {i : Instr} (s : State) (h : decode w = .ok i) :
    runWord w s = exec i s := by
  simp only [runWord, h]

/-- Settles O41: the slot order gives the turn, the turn takes the request, and the word runs its op. -/
theorem stepRunsTheDecodedOp : Obligations.StepRunsTheDecodedOp := by
  intro s p b rest r q i hsched hjob hqueue hdecode
  have hturn := turn_of_request (s := { s with sched := rest }) b hjob hqueue
  exact ⟨_, (step_of_act hsched).trans (hturn.trans (runWord_of_decode _ hdecode)), rfl, rfl, rfl,
    State.port_setPort_self _ _ _, fun _ hp' => State.port_setPort_ne _ hp' _, rfl, rfl⟩

/-! ### A word placed for the next step (log 11) -/

/-- The port of a placed word has no op in progress, and the word at the head of its queue. -/
theorem State.withCommand_port (s : State) (p : Port) (cw : Word) :
    (s.withCommand p cw).port p =
      { s.port p with
        queue := { cw := cw, buf := Vector.replicate 255 0#8 } :: (s.port p).queue, job := none } :=
  State.port_setPort_self _ _ _

/-- Settles O42: the next move is a whole burst of the port that owns the op, on which the op's word waits. -/
theorem placedWordRunsAtTheNextStep : Obligations.PlacedWordRunsAtTheNextStep := by
  intro s i
  have hport := s.withCommand_port (portOfWord (encode i)) (encode i)
  obtain ⟨s', hstep, hslots, hbus, -, -, -, -, hparams⟩ :=
    stepRunsTheDecodedOp (s.withCommand (portOfWord (encode i)) (encode i)) (portOfWord (encode i))
      ⟨[], true⟩ s.sched _ _ i rfl (congrArg PortState.job hport) (congrArg PortState.queue hport)
      (decode_encode i)
  refine ⟨s', ?_, hslots, hparams, ?_, .inr ?_⟩
  · rw [State.withFetchWord, commandWord_toNat, hstep]
  · rw [hbus]
    exact acceptedOn_portOfWord i
  · rw [hbus]

/-! ### An op and its port -/

theorem State.ifAccepted_next (s : State) (i : Instr) (k : State) : ∃ t, s.ifAccepted i k = .next t := by
  obtain ⟨-, e⟩ | ⟨-, e⟩ := s.ifAccepted_cases i k
  · exact ⟨_, e⟩
  · exact ⟨_, e⟩

/-- Every op has a next state (R236, R276). -/
theorem exec_next (i : Instr) (s : State) : ∃ t, exec i s = .next t := by
  cases i with
  | nop => exact s.ifAccepted_next .nop _
  | get idx => exact s.ifAccepted_next (.get idx) _
  | set idx val => exact s.ifAccepted_next (.set idx val) _
  | rstn => exact s.ifAccepted_next .rstn _
  | poll keys => exact s.ifAccepted_next (.poll keys) _
  | enc => exact s.ifAccepted_next .enc _
  | dec len => exact s.ifAccepted_next (.dec len) _

/-- Settles O48: every op has a next state, and every next state differs only in the registers and the port. -/
theorem opsTouchOnlyTheirPort : Obligations.OpsTouchOnlyTheirPort := by
  intro i s
  obtain ⟨t, ht⟩ := exec_next i s
  exact ⟨t, ht, exec_onlyPort ht⟩

end Sys2Proof.Machine
end

section
/-! SUPPORT. The slot events of one op with no other agent's between them (20_memory.md R62): those of a stage access
different slots, so their order does not matter. -/

namespace Sys2Proof.Machine

/-! ### A slot event with all that depend on it -/

/-- What an edge-triggered key does to the slots when it fires (R145, R146). -/
def EdgeKey.fire (key : EdgeKey) (sl : Slots) : Slots :=
  match key with
  | .tog j => sl.advanceSw j
  | .rst => sl.resetToNeutral

/-- What a slot event and those that depend on it do to the slots when nothing comes between. -/
def SlotEvent.complete (e : SlotEvent) (sl : Slots) : Slots :=
  match e with
  | .sample _ => sl
  | .stepRead k dir => ((stepValue dir (sl.getCh (stepCh k))).map (sl.setCh (stepCh k))).getD sl
  | .edgeRead key => if sl.getLatch key.latch then sl else key.fire (sl.setLatch key.latch true)
  | .togRead j => sl.advanceSw j
  | .writeCh k v => sl.setCh k v
  | .writeSw j p => sl.setSw j p
  | .writeLatch m b => sl.setLatch m b

/-- What a list of slot events does to the slots, one after another. -/
def completeAll (es : List SlotEvent) (sl : Slots) : Slots := es.foldl (fun sl e => e.complete sl) sl

theorem completeAll_cons (e : SlotEvent) (es : List SlotEvent) (sl : Slots) :
    completeAll (e :: es) sl = completeAll es (e.complete sl) := rfl

theorem completeAll_append (es es' : List SlotEvent) (sl : Slots) :
    completeAll (es ++ es') sl = completeAll es' (completeAll es sl) := List.foldl_append

/-- A sequence of actions on the slots, each done by a list of slot events. -/
theorem completeAll_flatMap {ι : Type} {events : ι → List SlotEvent} {act : Slots → ι → Slots}
    (h : ∀ i sl, completeAll (events i) sl = act sl i) (l : List ι) (sl : Slots) :
    completeAll (l.flatMap events) sl = l.foldl act sl := by
  induction l generalizing sl with
  | nil => rfl
  | cons i l ih => rw [List.flatMap_cons, completeAll_append, h, ih, List.foldl_cons]

/-! ### `reset_to_neutral` as slot writes (R124) -/

/-- Reading after a sequence of writes that each put the value `f i` into the slot `i`. -/
theorem read_foldl_write {σ ι β : Type} [DecidableEq ι] {write : σ → ι → σ} {read : σ → ι → β} {f : ι → β}
    (h : ∀ s i k, read (write s i) k = if k = i then f k else read s k) (l : List ι) (s : σ) (k : ι) :
    read (l.foldl write s) k = if k ∈ l then f k else read s k := by
  induction l generalizing s with
  | nil => simp
  | cons i l ih =>
    rw [List.foldl_cons, ih, h]
    by_cases hk : k = i <;> simp [hk]

/-- What no event of a list changes, the list does not change. -/
theorem completeAll_frame {β : Type} (read : Slots → β) {es : List SlotEvent}
    (h : ∀ e ∈ es, ∀ sl, read (e.complete sl) = read sl) (sl : Slots) :
    read (completeAll es sl) = read sl :=
  List.foldlRecOn (motive := fun sl' => read sl' = read sl) es _ rfl fun sl' hsl' e he =>
    (h e he sl').trans hsl'

theorem getCh_completeAll_neutral (sl : Slots) (k : Fin 16) :
    (completeAll ((List.finRange 16).map fun k => .writeCh k neutral[k]) sl).getCh k = neutral[k] := by
  have hwrite (sl : Slots) (i k : Fin 16) :
      (sl.setCh i neutral[i]).getCh k = if k = i then neutral[k] else sl.getCh k := by
    rw [Slots.getCh_setCh]
    split <;> simp [*]
  rw [completeAll, List.foldl_map]
  exact (read_foldl_write (read := Slots.getCh) hwrite _ sl k).trans (if_pos (List.mem_finRange k))

theorem getSw_completeAll_neutral (sl : Slots) (j : Fin 11) :
    (completeAll ((List.finRange 11).map fun j => .writeSw j swNeutral) sl).getSw j = swNeutral := by
  rw [completeAll, List.foldl_map]
  exact (read_foldl_write (read := Slots.getSw) (fun sl i j => sl.getSw_setSw i j swNeutral) _ sl j).trans
    (if_pos (List.mem_finRange j))

/-- The 27 writes one after another are `reset_to_neutral`. -/
theorem completeAll_neutralWrites (sl : Slots) : completeAll neutralWrites sl = sl.resetToNeutral := by
  rw [neutralWrites, completeAll_append]
  refine Slots.eq_of_reads (fun k => ?_) (fun j => ?_) (fun m => ?_)
  · rw [completeAll_frame (fun sl => sl.getCh k) (by simp [SlotEvent.complete]), getCh_completeAll_neutral,
      Slots.getCh_resetToNeutral]
  · rw [getSw_completeAll_neutral, Slots.getSw_resetToNeutral]
  · rw [completeAll_frame (fun sl => sl.getLatch m) (by simp [SlotEvent.complete]),
      completeAll_frame (fun sl => sl.getLatch m) (by simp [SlotEvent.complete]),
      Slots.getLatch_resetToNeutral]

/-- A slot event and then those that depend on it. -/
theorem SlotEvent.completeAll_more (e : SlotEvent) (sl : Slots) (t : Vector Chan 16) :
    completeAll (e.perform sl t).more (e.perform sl t).slots = e.complete sl := by
  cases e with
  | stepRead k dir =>
    simp only [SlotEvent.perform, SlotEvent.complete]
    split
    · rename_i hv
      rw [hv]
      rfl
    · rename_i hv
      rw [hv]
      rfl
  | edgeRead key =>
    simp only [SlotEvent.perform, SlotEvent.complete]
    split
    · rfl
    · cases key with
      | tog j => rfl
      | rst =>
        rw [completeAll_cons]
        exact completeAll_neutralWrites _
  | _ => rfl

/-! ### Events that may occur in any order (R62) -/

/-- Two slot events of one stage: writes to different slots, or `TOG`'s read beside the latch write of its `EDGE`. -/
def SlotEvent.independent (e e' : SlotEvent) : Bool :=
  match e, e' with
  | .writeCh k _, .writeCh k' _ => k != k'
  | .writeSw j _, .writeSw j' _ => j != j'
  | .writeCh _ _, .writeSw _ _ => true
  | .writeSw _ _, .writeCh _ _ => true
  | .writeLatch _ _, .writeCh _ _ => true
  | .writeLatch _ _, .writeSw _ _ => true
  | .writeLatch _ _, .togRead _ => true
  | .writeCh _ _, .writeLatch _ _ => true
  | .writeSw _ _, .writeLatch _ _ => true
  | .togRead _, .writeLatch _ _ => true
  | _, _ => false

theorem SlotEvent.independent_comm (e e' : SlotEvent) : e.independent e' = e'.independent e := by
  cases e <;> cases e' <;> simp [SlotEvent.independent, bne_comm]

theorem Slots.setCh_comm (sl : Slots) {k k' : Fin 16} (h : k ≠ k') (v v' : Chan) :
    (sl.setCh k v).setCh k' v' = (sl.setCh k' v').setCh k v := by
  simp only [Slots.setCh, Vector.set_comm v v' (fun hk => h (Fin.ext hk))]

theorem Slots.setSw_comm (sl : Slots) {j j' : Fin 11} (h : j ≠ j') (p p' : Pos) :
    (sl.setSw j p).setSw j' p' = (sl.setSw j' p').setSw j p := by
  simp only [Slots.setSw, Vector.set_comm p p' (fun hj => h (Fin.ext hj))]

/-- Independent events do the same in either order: two writes to `CH` or to `SW` by their different slots, the other
pairs because they access different register files. -/
theorem SlotEvent.complete_comm {e e' : SlotEvent} (h : e.independent e' = true) (sl : Slots) :
    e'.complete (e.complete sl) = e.complete (e'.complete sl) := by
  cases e <;> cases e' <;> try cases h
  case writeCh.writeCh => exact sl.setCh_comm (by simpa [SlotEvent.independent] using h) _ _
  case writeSw.writeSw => exact sl.setSw_comm (by simpa [SlotEvent.independent] using h) _ _
  all_goals rfl

/-- What depends on an event is as independent of another as the event is. -/
theorem SlotEvent.independent_more {e e' : SlotEvent} (h : e.independent e' = true) (sl : Slots)
    (t : Vector Chan 16) : ∀ d ∈ (e.perform sl t).more, d.independent e' = true := by
  cases e with
  | togRead j => cases e' <;> simp_all [SlotEvent.independent, SlotEvent.perform]
  | stepRead | edgeRead => cases e' <;> cases h
  | _ => simp [SlotEvent.perform]

/-- The events of a list may occur in any order. -/
abbrev Unordered (es : List SlotEvent) : Prop := es.Pairwise fun e e' => e.independent e' = true

theorem unordered_neutralWrites : Unordered neutralWrites := by decide

theorem SlotEvent.unordered_more (e : SlotEvent) (sl : Slots) (t : Vector Chan 16) :
    Unordered (e.perform sl t).more := by
  cases e with
  | stepRead k dir =>
    simp only [SlotEvent.perform]
    split <;> simp
  | edgeRead key =>
    simp only [SlotEvent.perform]
    split
    · exact .nil
    · cases key with
      | tog j => simp [EdgeKey.fired, SlotEvent.independent]
      | rst => exact .cons (by decide) unordered_neutralWrites
  | togRead j => simp [SlotEvent.perform, SlotEvent.independent]
  | _ => exact .nil

/-- Of unordered events any may occur first. -/
theorem completeAll_eraseIdx {es : List SlotEvent} (h : Unordered es) {i : Nat} (hi : i < es.length)
    (sl : Slots) : completeAll (es.eraseIdx i) (es[i].complete sl) = completeAll es sl := by
  have hcomm : ∀ e ∈ es, ∀ e' ∈ es, ∀ sl, e'.complete (e.complete sl) = e.complete (e'.complete sl) := by
    have : Std.Symm fun e e' : SlotEvent => ∀ sl, e'.complete (e.complete sl) = e.complete (e'.complete sl) :=
      ⟨fun _ _ he sl => (he sl).symm⟩
    exact fun e he e' he' => (h.imp SlotEvent.complete_comm).forall_of_forall (fun _ _ _ => rfl) he he'
  have hperm := List.getElem_cons_eraseIdx_perm hi
  exact hperm.foldl_eq' (fun e he e' he' => hcomm e (hperm.subset he) e' (hperm.subset he')) sl

/-! ### An op without other agents' events between its own -/

/-- The pending slot events of an op, stage after stage. -/
def Job.pending (j : Job) : List SlotEvent := j.stages.flatMap fun st => st.first :: st.others

/-- The pending events of each stage may occur in any order. -/
abbrev Job.UnorderedStages (j : Job) : Prop := ∀ st ∈ j.stages, Unordered (st.first :: st.others)

theorem Stage.flatMap_ofList (es : List SlotEvent) :
    ((Stage.ofList es).flatMap fun st => st.first :: st.others) = es := by
  cases es with
  | nil => rfl
  | cons e es => exact List.append_nil _

theorem Stage.unordered_ofList {es : List SlotEvent} (h : Unordered es) :
    ∀ st ∈ Stage.ofList es, Unordered (st.first :: st.others) := by
  cases es with
  | nil => exact fun _ hst => nomatch hst
  | cons e es => exact fun st hst => List.mem_singleton.mp hst ▸ h

/-- One event leaves the rest of an op unordered within its stages, and the slots the op ends in as they were. -/
theorem Job.event_complete (n : Nat) (x : Slots × Job) (h : x.2.UnorderedStages) :
    (Job.event n x).2.UnorderedStages ∧
      completeAll (Job.event n x).2.pending (Job.event n x).1 = completeAll x.2.pending x.1 := by
  obtain ⟨sl, ret, t, stages⟩ := x
  cases stages with
  | nil => exact ⟨h, rfl⟩
  | cons st rest =>
    have hi : n % (st.first :: st.others).length < (st.first :: st.others).length :=
      Nat.mod_lt _ (by simp)
    obtain ⟨hst, hrest⟩ := List.forall_mem_cons.mp h
    have hpulled := (List.getElem_cons_eraseIdx_perm hi).symm.pairwise hst
      (fun he => (SlotEvent.independent_comm _ _).trans he)
    obtain ⟨hpicked, hothers⟩ := List.pairwise_cons.mp hpulled
    simp only [Job.event, Job.UnorderedStages, Job.pending, List.getD_eq_getElem _ _ hi]
    constructor
    · refine List.forall_mem_append.mpr ⟨Stage.unordered_ofList (List.pairwise_append.mpr
        ⟨SlotEvent.unordered_more _ _ _, hothers, fun d hd e he => ?_⟩), hrest⟩
      exact SlotEvent.independent_more (hpicked e he) _ _ d hd
    · rw [List.flatMap_append, Stage.flatMap_ofList, List.flatMap_cons, completeAll_append,
        completeAll_append, completeAll_append, SlotEvent.completeAll_more, completeAll_eraseIdx hst hi]

/-- A whole burst does what the pending events do in the order they are listed, whatever it picks first. -/
theorem Job.run_whole_slots {b : Burst} (hb : b.whole = true) (x : Slots × Job) (h : x.2.UnorderedStages) :
    (Job.run b x).1 = completeAll x.2.pending x.1 := by
  obtain ⟨-, hrun⟩ := Job.run_induction
    (P := fun y => y.2.UnorderedStages ∧ completeAll y.2.pending y.1 = completeAll x.2.pending x.1)
    (fun n y ⟨hy, heq⟩ => (Job.event_complete n y hy).imp id (Eq.trans · heq)) b x ⟨h, rfl⟩
  rw [← hrun, Job.pending, Job.run_whole b x hb]
  rfl

/-- What an op begun with registers `sl` comes to when no other agent's events fall between its own: the
registers and the result it ends with. -/
def Job.Performs (job : Job) (sl : Slots) (a : Slots × OpResult) : Prop :=
  ∀ b : Burst, b.whole = true →
    (Job.run b (sl, job)).1 = a.1 ∧ (Job.run b (sl, job)).2.answer = a.2

theorem Job.answer_of_done {j : Job} (h : j.ret = .done) : j.answer = .ok := by
  rw [Job.answer, h]

/-- An op that writes: its events in the order they are listed. -/
theorem Job.performs_writes {stages : List Stage} {sl sl' : Slots}
    (h : (Job.start .done stages).UnorderedStages)
    (hsl : completeAll (Job.start .done stages).pending sl = sl') :
    (Job.start .done stages).Performs sl (sl', .ok) := fun b hb =>
  ⟨(Job.run_whole_slots hb (sl, Job.start .done stages) h).trans hsl, Job.answer_of_done (Job.run_ret b _)⟩

theorem Job.allEvents_start_ofList (f : SlotEvent → Bool) (ret : Ret) (es : List SlotEvent) :
    (Job.start ret (Stage.ofList es)).allEvents f = es.all f := Stage.all_ofList f es

/-- An op that only samples: each value whose read is pending is that of its register (R121, R170). -/
theorem Job.performs_samples {ret : Ret} {reads : List SlotEvent} {sl : Slots} {r : OpResult}
    (h : reads.all SlotEvent.isSample = true)
    (hr : ∀ j : Job, j.ret = ret → (∀ k, .sample k ∈ reads → j.samples[k] = sl.getCh k) → j.answer = r) :
    (Job.start ret (Stage.ofList reads)).Performs sl (sl, r) := by
  intro b hb
  obtain ⟨hslots, -, hret, hvalue⟩ := Job.sampling_run b (sl, Job.start ret (Stage.ofList reads))
    ((Job.allEvents_start_ofList _ ret reads).trans h)
  refine ⟨hslots, hr _ hret fun k hk => (hvalue k).resolve_right fun ⟨_, hpending⟩ => ?_⟩
  obtain ⟨st, hst, -⟩ := hpending (by
    simpa [Job.start] using (Job.reads_ofList ret (Vector.replicate 16 0#11) reads [] k).mpr (.inl hk))
  rw [Job.run_whole b _ hb] at hst
  cases hst

end Sys2Proof.Machine
end

section
/-! SUPPORT. What each op comes to when no other agent's slot events fall between its own (20_memory.md R66): its
stages one after another are its pseudocode. And an op cut in two (R62). -/

namespace Sys2Proof.Machine

/-! ### Ops of one stage -/

theorem Job.performs_get (idx : Fin 16) (sl : Slots) :
    (Job.start (.value idx) (Stage.ofList [.sample idx])).Performs sl (sl, .okValue (sl.getCh idx)) :=
  Job.performs_samples rfl fun j hret hvalue => by
    simp only [Job.answer, hret, hvalue idx (List.mem_singleton.mpr rfl)]

theorem Job.performs_enc (sl : Slots) :
    (Job.start .frame (Stage.ofList encodeReads)).Performs sl (sl, .okFrame (pack sl.ch)) :=
  Job.performs_samples (by decide) fun j hret hvalue => by
    have hall : j.samples = sl.ch := Vector.ext fun i hi =>
      hvalue ⟨i, hi⟩ (List.mem_map_of_mem (List.mem_finRange _))
    simp only [Job.answer, hret, hall]

theorem Job.performs_set (idx : Fin 16) (val : Chan) (sl : Slots) :
    (Job.start .done (Stage.ofList [.writeCh idx val])).Performs sl (sl.setCh idx val, .ok) :=
  Job.performs_writes (Stage.unordered_ofList (List.pairwise_singleton _ _)) rfl

theorem Job.performs_rstn (sl : Slots) :
    (Job.start .done (Stage.ofList neutralWrites)).Performs sl (sl.resetToNeutral, .ok) :=
  Job.performs_writes (Stage.unordered_ofList unordered_neutralWrites) (by
    rw [Job.pending, Job.start, Stage.flatMap_ofList, completeAll_neutralWrites])

/-! ### `POLL`: its stages one after another are the tick of R147 -/

theorem completeAll_stepEvents (keys : BitVec 22) (k : Fin 4) (sl : Slots) :
    completeAll (stepEvents keys k) sl = sl.step keys k := by
  unfold stepEvents Slots.step
  split
  · rfl
  · simp only [completeAll_cons, SlotEvent.complete]
    split
    · rename_i hv
      rw [hv]
      rfl
    · rename_i hv
      rw [hv]
      rfl

theorem completeAll_snapEvents (keys : BitVec 22) (sl : Slots) :
    completeAll (snapEvents keys) sl = sl.snap keys := by
  unfold snapEvents Slots.snap
  split <;> rfl

/-- `EDGE` and, when it fires, what follows (R144). -/
theorem completeAll_edgeEvents (keys : BitVec 22) (key : EdgeKey) (sl : Slots) :
    completeAll (edgeEvents keys key) sl =
      if sl.fires keys key then key.fire (sl.edge keys key) else sl.edge keys key := by
  unfold edgeEvents Slots.fires Slots.edge
  cases key.level keys with
  | false => rfl
  | true => cases hl : sl.getLatch key.latch <;> simp [completeAll, SlotEvent.complete, hl]

/-- The slot events of the 16 actions other than `KRST`. -/
theorem completeAll_mapStages (keys : BitVec 22) (sl : Slots) :
    completeAll ((mapStages keys).flatMap fun st => st.first :: st.others) sl = sl.mapActions keys := by
  simp only [mapStages, List.flatMap_append, List.flatMap_assoc, Stage.flatMap_ofList, completeAll_append]
  rw [completeAll_flatMap (completeAll_stepEvents keys), completeAll_snapEvents,
    completeAll_flatMap (act := fun sl j => sl.tog keys j)
      (fun j sl => completeAll_edgeEvents keys (.tog j) sl)]
  rfl

theorem completeAll_pollStages (order : ResetOrder) (keys : BitVec 22) (sl : Slots) :
    completeAll ((pollStages order keys).flatMap fun st => st.first :: st.others) sl =
      sl.pollTick order keys := by
  have hkrst (sl : Slots) : completeAll (edgeEvents keys .rst) sl = sl.krst keys :=
    completeAll_edgeEvents keys .rst sl
  cases order with
  | last =>
    rw [pollStages, List.flatMap_append, completeAll_append, completeAll_mapStages, Stage.flatMap_ofList,
      hkrst]
    rfl
  | first =>
    rw [pollStages, List.flatMap_append, completeAll_append, Stage.flatMap_ofList, hkrst,
      completeAll_mapStages]
    rfl

/-- Every action of a tick begins with one event or none. -/
theorem unordered_pollStages (order : ResetOrder) (keys : BitVec 22) :
    ∀ st ∈ pollStages order keys, Unordered (st.first :: st.others) := by
  have hstep (k : Fin 4) : Unordered (stepEvents keys k) := by
    unfold stepEvents
    split <;> simp
  have hsnap : Unordered (snapEvents keys) := by
    unfold snapEvents
    split <;> simp
  have hedge (key : EdgeKey) : Unordered (edgeEvents keys key) := by
    unfold edgeEvents
    split <;> simp
  have hmap : ∀ st ∈ mapStages keys, Unordered (st.first :: st.others) := by
    intro st hst
    obtain (hst | hst) | hst := (List.mem_append.mp hst).imp_left List.mem_append.mp
    · obtain ⟨k, -, hst⟩ := List.mem_flatMap.mp hst
      exact Stage.unordered_ofList (hstep k) st hst
    · exact Stage.unordered_ofList hsnap st hst
    · obtain ⟨j, -, hst⟩ := List.mem_flatMap.mp hst
      exact Stage.unordered_ofList (hedge (.tog j)) st hst
  cases order with
  | last => exact List.forall_mem_append.mpr ⟨hmap, Stage.unordered_ofList (hedge .rst)⟩
  | first => exact List.forall_mem_append.mpr ⟨Stage.unordered_ofList (hedge .rst), hmap⟩

theorem Job.performs_poll (order : ResetOrder) (keys : BitVec 22) (sl : Slots) :
    (Job.start .done (pollStages order keys)).Performs sl (sl.pollTick order keys, .ok) :=
  Job.performs_writes (unordered_pollStages order keys) (completeAll_pollStages order keys sl)

/-! ### Atomic and undisturbed ops (R66) -/

/-- With ops atomic, or in a whole burst, an op makes the one transition. -/
theorem State.launch_undisturbed {s : State} {job : Job} {a : Slots × OpResult} (h : s.Undisturbed)
    (hjob : job.Performs s.slots a) : s.launch job a = { s with slots := a.1 }.answer a.2 := by
  unfold State.launch
  split
  · rfl
  · have hb := h.resolve_left ‹_›
    obtain ⟨hslots, hanswer⟩ := hjob s.bus.burst hb
    simp only [State.settle, Job.run_whole _ _ hb, hslots, hanswer]
    rfl

/-- The state with another burst for the turn, and `P_ATOMIC_OPS` set or not. -/
abbrev State.underTurn (s : State) (b : Burst) (atomicOps : Bool) : State :=
  { s with bus := { s.bus with burst := b }, params := { s.params with atomicOps := atomicOps } }

theorem State.ifAccepted_of_accepted {s : State} {i : Instr} (h : i.acceptedOn s.bus.port = true) (k : State) :
    s.ifAccepted i k = .next k := if_pos h

/-- An op on a port that does not own it is answered `ILLEGAL` (R97, R241). -/
theorem exec_of_not_accepted {s : State} {i : Instr} (h : i.acceptedOn s.bus.port = false) :
    exec i s = .next (s.answer .illegal) := by
  cases i <;> exact if_neg (Bool.eq_false_iff.mp h)

/-- Whatever the burst and the setting of `P_ATOMIC_OPS`, an op is answered at once, or begins a job that
undisturbed comes to the one transition. -/
theorem exec_underTurn (i : Instr) (s : State) :
    (∃ r, ∀ b atomicOps,
      exec i (s.underTurn b atomicOps) = .next ((s.underTurn b atomicOps).answer r)) ∨
    ∃ job a, job.Performs s.slots a ∧ ∀ b atomicOps,
      exec i (s.underTurn b atomicOps) = .next ((s.underTurn b atomicOps).launch job a) := by
  cases hacc : i.acceptedOn s.bus.port with
  | false => exact .inl ⟨.illegal, fun b atomicOps => exec_of_not_accepted (s := s.underTurn b atomicOps) hacc⟩
  | true =>
    have haccepted (b : Burst) (atomicOps : Bool) (k : State) :
        (s.underTurn b atomicOps).ifAccepted i k = .next k :=
      State.ifAccepted_of_accepted (s := s.underTurn b atomicOps) hacc k
    cases i with
    | nop => exact .inl ⟨.ok, fun b atomicOps => haccepted b atomicOps _⟩
    | get idx =>
      exact .inr ⟨_, _, Job.performs_get idx s.slots, fun b atomicOps => haccepted b atomicOps _⟩
    | set idx val =>
      exact .inr ⟨_, _, Job.performs_set idx val s.slots, fun b atomicOps => haccepted b atomicOps _⟩
    | rstn => exact .inr ⟨_, _, Job.performs_rstn s.slots, fun b atomicOps => haccepted b atomicOps _⟩
    | poll keys =>
      exact .inr ⟨_, _, Job.performs_poll s.params.resetOrder keys s.slots,
        fun b atomicOps => haccepted b atomicOps _⟩
    | enc => exact .inr ⟨_, _, Job.performs_enc s.slots, fun b atomicOps => haccepted b atomicOps _⟩
    | dec len => exact .inl ⟨decodeResult len s.bus.buf, fun b atomicOps => haccepted b atomicOps _⟩

/-- Settles O49: an op answered at once is answered the same, and both runs of any other make the one transition. -/
theorem atomicOpIsAnUndisturbedOp : Obligations.AtomicOpIsAnUndisturbedOp := by
  intro i s _ hwhole
  obtain ⟨r, hexec⟩ | ⟨job, a, hjob, hexec⟩ := exec_underTurn i s
  · exact ⟨_, _, hexec s.bus.burst s.params.atomicOps, hexec s.bus.burst true, rfl⟩
  · refine ⟨_, _, hexec s.bus.burst s.params.atomicOps, hexec s.bus.burst true, ?_⟩
    have hdisturbed := State.launch_undisturbed (s := s) (.inr hwhole) hjob
    have hatomic := State.launch_undisturbed (s := s.underTurn s.bus.burst true) (.inl rfl) hjob
    rw [hatomic, hdisturbed]
    rfl

/-! ### An op cut in two (R62) -/

/-- A burst cut in two. -/
theorem Job.run_append (p₁ p₂ : List Nat) (w : Bool) (x : Slots × Job) :
    Job.run ⟨p₂, w⟩ (Job.run ⟨p₁, false⟩ x) = Job.run ⟨p₁ ++ p₂, w⟩ x := by
  simp only [Job.run, List.foldl_append, Bool.false_eq_true, if_false]

theorem Job.run_done (b : Burst) (x : Slots × Job) (h : x.2.stages = []) : Job.run b x = x :=
  Job.run_induction (P := fun y => y = x) (fun n y hy => by rw [hy, Job.event_done n x h]) b x rfl

theorem State.advance_of_no_job {s : State} {p : Port} (h : (s.port p).job = none) (b : Burst) :
    s.advance p b = s := by
  simp only [State.advance, h]

theorem State.advance_of_job {s : State} {p : Port} {j : Job} (h : (s.port p).job = some j)
    (hatomic : s.params.atomicOps = false) (b : Burst) :
    s.advance p b = s.settle p (Job.run b (s.slots, j)) := by
  simp only [State.advance, h, hatomic, Bool.false_eq_true, if_false]

/-- What a later burst leaves replaces what an earlier one left. -/
theorem State.settle_settle (s : State) (p : Port) (x y : Slots × Job) :
    (s.settle p x).settle p y = s.settle p y := by
  have hqueue := (s.settle_onlyPort p x).queue
  have hset (q : PortState) : { s.settle p x with slots := y.1 }.setPort p q =
      { s with slots := y.1 }.setPort p q :=
    congrArg (fun ports => ({ s with slots := y.1, ports := ports } : State)) (Ports.set_set _ p _ q)
  rw [State.settle.eq_def (s.settle p x)]
  dsimp only
  rw [hset, hqueue]
  rfl

/-- Going on with an op that a burst left off is the two bursts in one. -/
theorem State.advance_settle {s : State} (hatomic : s.params.atomicOps = false) (p : Port) (b : Burst)
    (x : Slots × Job) : (s.settle p x).advance p b = s.settle p (Job.run b x) := by
  by_cases hdone : x.2.stages = []
  · rw [Job.run_done b x hdone, State.advance_of_no_job]
    rw [State.settle_port_done s p x hdone]
  · have hport := congrArg PortState.job (State.settle_port_parked s p x hdone)
    rw [State.advance_of_job hport hatomic, State.settle_settle]
    rfl

/-- Settles O50: a job's two bursts are one, and an op answered at once leaves nothing to go on with. -/
theorem cutOpGoesOnWhereItStopped : Obligations.CutOpGoesOnWhereItStopped := by
  intro i s t u p₁ p₂ w hatomic ht hu
  obtain ⟨r, hexec⟩ | ⟨job, a, -, hexec⟩ := exec_underTurn i s
  · cases (hexec ⟨p₁ ++ p₂, w⟩ s.params.atomicOps).symm.trans ht
    cases (hexec ⟨p₁, false⟩ s.params.atomicOps).symm.trans hu
    rw [State.advance_of_no_job (by simp)]
    exact ⟨rfl, rfl⟩
  · cases (hexec ⟨p₁ ++ p₂, w⟩ s.params.atomicOps).symm.trans ht
    cases (hexec ⟨p₁, false⟩ s.params.atomicOps).symm.trans hu
    have hlaunch (b : Burst) : (s.underTurn b s.params.atomicOps).launch job a =
        (s.underTurn b s.params.atomicOps).settle s.bus.port (Job.run b (s.slots, job)) :=
      if_neg (Bool.eq_false_iff.mp hatomic)
    rw [hlaunch, hlaunch,
      State.advance_settle (s := s.underTurn ⟨p₁, false⟩ s.params.atomicOps) hatomic, Job.run_append]
    exact ⟨rfl, rfl⟩

end Sys2Proof.Machine
end

section
/-! SUPPORT. What an op does to the registers, however far it gets (20_memory.md R58, R62, R67, R71). -/

namespace Sys2Proof.Machine

/-! ### The registers after an op -/

/-- What holds of the registers before an op and of those its meaning leaves holds after it: on a port that does not
own the op the first are kept. -/
theorem State.ifAccepted_slots {P : Slots → Prop} {s k t : State} {i : Instr} (hs : P s.slots)
    (hk : P k.slots) (h : s.ifAccepted i k = .next t) : P t.slots := by
  obtain ⟨-, e⟩ | ⟨-, e⟩ := s.ifAccepted_cases i k
  · cases e.symm.trans h
    exact hk
  · cases e.symm.trans h
    exact hs

/-- What holds of the registers after the one transition and after a burst of slot events holds after the op begins. -/
theorem State.launch_slots {P : Slots → Prop} {s : State} {job : Job} {a : Slots × OpResult} (ha : P a.1)
    (hrun : P (Job.run s.bus.burst (s.slots, job)).1) : P (s.launch job a).slots := by
  unfold State.launch
  split
  · exact ha
  · exact hrun

/-! ### `RSTN` in progress (R62, R67) -/

/-- A write of `reset_to_neutral` (R124). -/
def SlotEvent.writesNeutral (e : SlotEvent) : Bool :=
  match e with
  | .writeCh k v => v == neutral[k]
  | .writeSw _ p => p == swNeutral
  | _ => false

/-- Registers `sl` between `old` and the neutral configuration: every `CH` and `SW` slot holds the value of one of
the two, and the latches are the old ones. -/
structure Slots.PartlyNeutral (old sl : Slots) : Prop where
  ch : ∀ k, sl.getCh k = old.getCh k ∨ sl.getCh k = neutral[k]
  sw : ∀ j, sl.getSw j = old.getSw j ∨ sl.getSw j = swNeutral
  latch : ∀ m, sl.getLatch m = old.getLatch m

theorem Slots.PartlyNeutral.refl (sl : Slots) : Slots.PartlyNeutral sl sl :=
  ⟨fun _ => .inl rfl, fun _ => .inl rfl, fun _ => rfl⟩

theorem Slots.partlyNeutral_resetToNeutral (sl : Slots) : Slots.PartlyNeutral sl sl.resetToNeutral :=
  ⟨fun k => .inr (sl.getCh_resetToNeutral k), fun j => .inr (sl.getSw_resetToNeutral j),
    sl.getLatch_resetToNeutral⟩

/-- A neutral write leaves the registers between the two. -/
theorem SlotEvent.perform_partlyNeutral {e : SlotEvent} (he : e.writesNeutral = true) {old sl : Slots}
    (h : Slots.PartlyNeutral old sl) (t : Vector Chan 16) : Slots.PartlyNeutral old (e.perform sl t).slots := by
  cases e with
  | writeCh i v =>
    refine ⟨fun k => ?_, h.sw, h.latch⟩
    rw [SlotEvent.perform, Slots.getCh_setCh]
    split
    · rename_i hk
      exact .inr ((eq_of_beq he).trans (by rw [hk]))
    · exact h.ch k
  | writeSw i p =>
    refine ⟨h.ch, fun j => ?_, h.latch⟩
    rw [SlotEvent.perform, Slots.getSw_setSw]
    split
    · exact .inr (eq_of_beq he)
    · exact h.sw j
  | _ => exact absurd he Bool.false_ne_true

theorem SlotEvent.more_of_writesNeutral {e : SlotEvent} (he : e.writesNeutral = true) (sl : Slots)
    (t : Vector Chan 16) : (e.perform sl t).more = [] := by
  cases e with
  | writeCh | writeSw => rfl
  | _ => exact absurd he Bool.false_ne_true

/-- Any burst of an op that does neutral writes only. -/
theorem Job.run_partlyNeutral (b : Burst) (x : Slots × Job)
    (h : x.2.allEvents SlotEvent.writesNeutral = true) : Slots.PartlyNeutral x.1 (Job.run b x).1 := by
  refine (Job.run_induction (P := fun y => y.2.allEvents SlotEvent.writesNeutral = true ∧
    Slots.PartlyNeutral x.1 y.1) ?_ b x ⟨h, .refl _⟩).2
  rintro n y ⟨hall, hpart⟩
  constructor
  · exact Job.allEvents_event (fun e sl t he => by rw [SlotEvent.more_of_writesNeutral he]; rfl) n y hall
  · obtain heq | ⟨e, he, heq⟩ := Job.event_slots n y hall
    · rwa [heq]
    · rw [heq]
      exact SlotEvent.perform_partlyNeutral he hpart _

/-- Settles O7: all that `RSTN` ever does are neutral writes. -/
theorem rstnInProgressIsPartlyRestored : Obligations.RstnInProgressIsPartlyRestored := by
  intro s t h
  have hwrites : (Job.start .done (Stage.ofList neutralWrites)).allEvents SlotEvent.writesNeutral = true := by
    rw [Job.allEvents_start_ofList]
    decide
  have hpart : Slots.PartlyNeutral s.slots t.slots :=
    State.ifAccepted_slots (P := Slots.PartlyNeutral s.slots) (.refl _)
      (State.launch_slots s.slots.partlyNeutral_resetToNeutral
        (Job.run_partlyNeutral _ (s.slots, _) hwrites)) h
  exact ⟨fun k => (hpart.ch k).imp_right fun hk => hk.trans (neutral_getElem k), hpart.sw, hpart.latch⟩

/-! ### `SET` and `RSTN` twice (R58) -/

/-- An undisturbed op that on its port does `f` to the registers leaves, done twice, what it leaves done once if `f`
does. -/
theorem exec_twice_slots {i : Instr} {f : Slots → Slots} (hf : ∀ sl, f (f sl) = f sl)
    (hexec : ∀ s t : State, s.Undisturbed → exec i s = .next t →
      t.slots = if i.acceptedOn s.bus.port then f s.slots else s.slots)
    {s t u : State} (hs : s.Undisturbed) (ht : exec i s = .next t) (hu : exec i t = .next u) :
    u.slots = t.slots := by
  have hframe := exec_onlyPort ht
  have hundisturbed : t.Undisturbed := by
    rw [State.Undisturbed, hframe.params, hframe.bus]
    exact hs
  rw [hexec t u hundisturbed hu, hexec s t hs ht, hframe.bus]
  split
  · exact hf _
  · rfl

/-- The registers after an undisturbed op that its meaning begins as a job. -/
theorem State.slots_of_launch {s t : State} {i : Instr} {job : Job} {a : Slots × OpResult} (hs : s.Undisturbed)
    (hjob : job.Performs s.slots a) (ht : s.ifAccepted i (s.launch job a) = .next t) :
    t.slots = if i.acceptedOn s.bus.port then a.1 else s.slots := by
  rw [State.launch_undisturbed hs hjob] at ht
  obtain ⟨hacc, e⟩ | ⟨hacc, e⟩ := s.ifAccepted_cases i _
  · cases e.symm.trans ht
    rw [hacc]
    rfl
  · cases e.symm.trans ht
    rw [hacc]
    rfl

/-- Settles O8: one slot written twice with one value, and the neutral configuration restored twice. -/
theorem setAndRstnAreIdempotent : Obligations.SetAndRstnAreIdempotent := by
  rintro i s t u (rfl | ⟨idx, val, rfl⟩) hs ht hu
  · exact exec_twice_slots (i := .rstn) (f := Slots.resetToNeutral) (fun _ => rfl)
      (fun s t hs ht => State.slots_of_launch hs (Job.performs_rstn s.slots) ht) hs ht hu
  · refine exec_twice_slots (i := .set idx val) (f := fun sl => sl.setCh idx val) (fun sl => ?_)
      (fun s t hs ht => State.slots_of_launch hs (Job.performs_set idx val s.slots) ht) hs ht hu
    exact congrArg (fun ch => { sl with ch := ch }) (Vector.set_set ..)

/-! ### Ops that read only (R58, R71) -/

/-- Beginning an op that only samples keeps the registers. -/
theorem State.launch_samples_slots (s : State) {ret : Ret} {reads : List SlotEvent}
    (h : reads.all SlotEvent.isSample = true) (r : OpResult) :
    (s.launch (Job.start ret (Stage.ofList reads)) (s.slots, r)).slots = s.slots :=
  State.launch_slots (P := (· = s.slots)) rfl
    (Job.sampling_run _ (s.slots, _) ((Job.allEvents_start_ofList _ ret reads).trans h)).slots

/-- Settles O9: `NOP` and `DEC` only answer, `GET` and `ENC` only sample. -/
theorem readingOpsWriteNoRegister : Obligations.ReadingOpsWriteNoRegister := by
  rintro i s t (rfl | ⟨idx, rfl⟩ | rfl | ⟨len, rfl⟩) h
  · exact State.ifAccepted_slots (P := (· = s.slots)) (i := .nop) rfl (s.answer_slots .ok) h
  · exact State.ifAccepted_slots (P := (· = s.slots)) rfl (s.launch_samples_slots rfl _) h
  · exact State.ifAccepted_slots (P := (· = s.slots)) rfl (s.launch_samples_slots (by decide) _) h
  · exact State.ifAccepted_slots (P := (· = s.slots)) rfl (s.answer_slots _) h

end Sys2Proof.Machine
end

section
/-! SUPPORT. The frame bit by bit: where `pack` puts a bit of a channel (20_memory.md R52), and which bits of the buffer
`unpack` cuts out (43_frame_decoder.md R191). -/

namespace Sys2Proof.Machine

/-! ### `pack` -/

theorem getLsbD_foldl_or {ι : Type} {w : Nat} (f : ι → BitVec w) (l : List ι) (p : BitVec w) (n : Nat) :
    (l.foldl (fun p k => p ||| f k) p).getLsbD n = (p.getLsbD n || l.any fun k => (f k).getLsbD n) := by
  induction l generalizing p with
  | nil => simp
  | cons k l ih => rw [List.foldl_cons, ih, BitVec.getLsbD_or, List.any_cons, Bool.or_assoc]

/-- Field `k` holds the stream bits `11k` to `11k+10` and no others. -/
theorem getLsbD_fieldAt (v : Chan) (k : Fin 16) {n : Nat} (h : n < 176) :
    (fieldAt v k).getLsbD n = (decide (k.val = n / 11) && v.getLsbD (n % 11)) := by
  rw [fieldAt, BitVec.getLsbD_shiftLeft, BitVec.getLsbD_setWidth]
  by_cases hk : k.val = n / 11
  · have hle : 11 * k.val ≤ n := by omega
    have hbit : n - 11 * k.val = n % 11 := by omega
    have hlt : n % 11 < 176 := by omega
    rw [hbit, decide_eq_true h, decide_eq_true hk, decide_eq_true hlt, decide_eq_false (Nat.not_lt.mpr hle)]
    rfl
  · have hbeyond : ¬n < 11 * k.val → v.getLsbD (n - 11 * k.val) = false :=
      fun _ => BitVec.getLsbD_of_ge v _ (by omega)
    rw [decide_eq_false hk]
    by_cases hlt : n < 11 * k.val
    · simp [hlt]
    · simp [hbeyond hlt]

/-- Stream bit `n` of the payload (R52). -/
theorem getLsbD_payload (t : Vector Chan 16) {n : Nat} (h : n < 176) :
    (payload t).getLsbD n = (t[n / 11]'(by omega)).getLsbD (n % 11) := by
  rw [payload, getLsbD_foldl_or, BitVec.getLsbD_zero, Bool.false_or]
  simp only [getLsbD_fieldAt _ _ h]
  rw [Bool.eq_iff_iff, List.any_eq_true]
  constructor
  · rintro ⟨k, -, hk⟩
    obtain ⟨hfield, hbit⟩ := Bool.and_eq_true_iff.mp hk
    simpa only [Fin.getElem_fin, of_decide_eq_true hfield] using hbit
  · intro hbit
    exact ⟨⟨n / 11, by omega⟩, List.mem_finRange _, Bool.and_eq_true_iff.mpr ⟨decide_eq_true rfl, hbit⟩⟩

/-- Settles O26: byte `1 + n / 8` is cut out of the payload at bit `8 (n / 8)`. -/
theorem streamBitsStandWhereTheRulePutsThem : Obligations.StreamBitsStandWhereTheRulePutsThem := by
  intro t n h
  have hbyte : (pack t)[1 + n / 8]'(by omega) = (payload t).extractLsb' (8 * (n / 8)) 8 := by
    simp only [pack, Vector.getElem_ofFn, frameByte]
    rw [if_neg (by omega), if_pos (by omega), Nat.add_sub_cancel_left]
  have hbit : 8 * (n / 8) + n % 8 = n := Nat.div_add_mod n 8
  rw [hbyte, BitVec.getLsbD_extractLsb', hbit, getLsbD_payload t h]
  simp [Nat.mod_lt]

/-! ### `unpack` -/

/-- Bit `i` of a window of three consecutive bytes. -/
theorem getLsbD_window (buf : Buf) (b i : Nat) (hb : b + 2 < 255) (hi : i < 24) :
    (buf[b + 2] ++ buf[b + 1] ++ buf[b] : BitVec 24).getLsbD i =
      (buf[b + i / 8]'(by omega)).getLsbD (i % 8) := by
  rw [BitVec.getLsbD_append, BitVec.getLsbD_append]
  obtain hbyte | hbyte | hbyte : i / 8 = 0 ∨ i / 8 = 1 ∨ i / 8 = 2 := by omega
  · have hmod : i % 8 = i := by omega
    rw [if_pos (by omega)]
    simp only [hbyte, hmod, Nat.add_zero]
  · have hmod : i % 8 = i - 8 := by omega
    rw [if_neg (by omega), if_pos (by omega)]
    simp only [hbyte, hmod]
  · have hmod : i % 8 = i - 8 - 8 := by omega
    rw [if_neg (by omega), if_neg (by omega)]
    simp only [hbyte, hmod]

/-- Bit `i` of field `k` is bit `11k + i` of the bytes from `BUF[1]` on (R191). -/
theorem getLsbD_unpack (buf : Buf) (k : Fin 12) {i : Nat} (hi : i < 11) :
    (unpack buf k).getLsbD i =
      (buf[1 + (11 * k.val + i) / 8]'(by omega)).getLsbD ((11 * k.val + i) % 8) := by
  have hmask : ∀ i : Fin 11, (0x07FF#24).getLsbD i.val = true := by decide
  have hbyte : 1 + 11 * k.val / 8 + (11 * k.val % 8 + i) / 8 = 1 + (11 * k.val + i) / 8 := by omega
  have hbit : (11 * k.val % 8 + i) % 8 = (11 * k.val + i) % 8 := by omega
  simp only [unpack]
  rw [BitVec.getLsbD_setWidth, BitVec.getLsbD_and, BitVec.getLsbD_ushiftRight, hmask ⟨i, hi⟩,
    getLsbD_window buf _ _ (by omega) (by omega)]
  simp only [hi, hbyte, hbit, decide_true, Bool.true_and, Bool.and_true]

/-- The 12 values depend on the payload bytes up to the low half of byte 17 (R195). -/
theorem unpackAll_congr {buf buf' : Buf} (hbytes : ∀ i : Fin 255, 1 ≤ i.val → i.val ≤ 16 → buf[i] = buf'[i])
    (hlow : buf[17].extractLsb' 0 4 = buf'[17].extractLsb' 0 4) : unpackAll buf = unpackAll buf' := by
  refine Vector.ext fun k hk => ?_
  rw [unpackAll, unpackAll, Vector.getElem_ofFn, Vector.getElem_ofFn]
  refine BitVec.eq_of_getLsbD_eq fun i hi => ?_
  rw [getLsbD_unpack _ _ hi, getLsbD_unpack _ _ hi]
  by_cases hbyte : (11 * k + i) / 8 < 16
  · rw [show buf[1 + (11 * k + i) / 8] = buf'[1 + (11 * k + i) / 8] from
      hbytes ⟨1 + (11 * k + i) / 8, by omega⟩ (by simp) (by simpa using by omega)]
  · have hdiv : (11 * k + i) / 8 = 16 := by omega
    have hmod : (11 * k + i) % 8 < 4 := by omega
    have hbit := congrArg (fun b => b.getLsbD ((11 * k + i) % 8)) hlow
    simp only [BitVec.getLsbD_extractLsb', hmod, Nat.zero_add, decide_true, Bool.true_and] at hbit
    simpa only [hdiv] using hbit

/-- The answer to `DEC` on RX (R190). -/
theorem result_of_dec {len : BitVec 8} {s t : State} (hport : s.bus.port = .rx)
    (h : exec (.dec len) s = .next t) : (t.port .rx).result = some (decodeResult len s.bus.buf) := by
  have hanswer : exec (.dec len) s = .next (s.answer (decodeResult len s.bus.buf)) :=
    State.ifAccepted_of_accepted (i := .dec len) (by rw [hport]; rfl) _
  cases hanswer.symm.trans h
  rw [← hport, State.answer_port_self]

/-- Settles O34: the length test and the 12 values are all that the answer is made of. -/
theorem decDependsOnItsPayloadBytesOnly : Obligations.DecDependsOnItsPayloadBytesOnly := by
  intro len len' s s' t t' hport hport' hlen hbytes hlow ht ht'
  have hlen' : len.toNat < frameLen ↔ len'.toNat < frameLen := hlen
  rw [result_of_dec hport ht, result_of_dec hport' ht', decodeResult, decodeResult,
    unpackAll_congr hbytes hlow]
  simp only [hlen']

end Sys2Proof.Machine
end

section
/-! SUPPORT. An op in progress from turn to turn (20_memory.md R60 to R65): what a step does to its port, and where the
values that an `ENC` samples come from. -/

namespace Sys2Proof.Machine

/-! ### A step and a port with an op in progress -/

/-- Settles O51: the turn of a busy port goes on with its op and does nothing else. -/
theorem oneOpAtATimePerPort : Obligations.OneOpAtATimePerPort := by
  intro s t p b rest hjob hsched hstep
  rw [step_of_act hsched] at hstep
  obtain ⟨-, rfl⟩ | ⟨hnone, -⟩ | ⟨_, _, _, hnone, -⟩ := turn_cases hstep
  · have hframe := State.advance_onlyPort { s with sched := rest } p b
    exact ⟨hframe.queue, hframe.others⟩
  · exact absurd hjob (by rw [show (s.port p).job = none from hnone]; exact Bool.false_ne_true)
  · exact absurd hjob (by rw [show (s.port p).job = none from hnone]; exact Bool.false_ne_true)

/-- Settles O55: what comes next is a free choice among the pending ports, or nothing when there is none. -/
theorem freeTurnGoesToAPendingPort : Obligations.FreeTurnGoesToAPendingPort := by
  intro s hsched
  obtain ⟨_, _, hcons, -⟩ | ⟨-, p, hp, n, hmove⟩ | ⟨-, hidle, hmove⟩ := s.nextMove_cases
  · rw [hsched] at hcons
    cases hcons
  · exact ⟨fun hidle => absurd (hidle ▸ hp) List.not_mem_nil,
      fun _ => ⟨p, hp, n, by simp only [step, hmove]⟩⟩
  · exact ⟨fun _ => by simp only [step, hmove], fun hne => absurd hidle hne⟩

/-- A port after a burst of its op: the op is complete, or what is left of it is in progress (R62). -/
def PortState.settled (q : PortState) (j : Job) : PortState :=
  if j.stages.isEmpty then { q with job := none, result := some j.answer }
  else { q with job := some j, result := none }

theorem State.settle_port (s : State) (p : Port) (x : Slots × Job) :
    (s.settle p x).port p = (s.port p).settled x.2 := State.port_setPort_self _ _ _

theorem PortState.settled_cases (q : PortState) (j : Job) :
    (j.stages = [] ∧ (q.settled j).job = none ∧ (q.settled j).result = some j.answer) ∨
      ((q.settled j).job = some j ∧ (q.settled j).result = none) := by
  unfold PortState.settled
  split
  · exact .inl ⟨List.isEmpty_iff.mp ‹_›, rfl, rfl⟩
  · exact .inr ⟨rfl, rfl⟩

/-- Going on with an op does a burst of it, whole when ops are atomic. -/
theorem State.advance_port {s : State} {p : Port} {j : Job} (hj : (s.port p).job = some j) (b : Burst) :
    ∃ b', (s.advance p b).port p = (s.port p).settled (Job.run b' (s.slots, j)).2 := by
  refine ⟨if s.params.atomicOps then { b with whole := true } else b, ?_⟩
  simp only [State.advance, hj, State.settle_port]

/-- A step leaves a port with an op in progress as it is, or is the hardware reset, or does a burst of the op. -/
theorem step_port_of_job {s t : State} {p : Port} {j : Job} (hj : (s.port p).job = some j)
    (h : step s = .next t) : t.port p = s.port p ∨ t.port p = { s.port p with job := none } ∨
      ∃ b, t.port p = (s.port p).settled (Job.run b (s.slots, j)).2 := by
  obtain ⟨-, rfl⟩ | ⟨s', hmove, rfl⟩ | ⟨q, b, s', hmove, hturn⟩ := step_cases h
  · exact .inl rfl
  · obtain ⟨-, hport, -⟩ := State.nextMove_frame hmove
    exact .inr (.inl (by rw [State.hardReset_port, hport]))
  · obtain ⟨hslots, hport, -⟩ := State.nextMove_frame hmove
    rw [← hport p] at hj ⊢
    rw [← hslots]
    by_cases hq : p = q
    · subst hq
      obtain ⟨-, rfl⟩ | ⟨hnone, -⟩ | ⟨_, _, _, hnone, -⟩ := turn_cases hturn
      · exact .inr (.inr (State.advance_port hj b))
      · cases hnone.symm.trans hj
      · cases hnone.symm.trans hj
    · exact .inl ((turn_frame hturn).1 p hq)

/-- A step that takes a request of port `p` runs its word on `p`, with the registers as they stand. -/
theorem step_of_request {s t : State} {p : Port} {request : Request}
    (hqueue : (s.port p).queue = request :: (t.port p).queue) (h : step s = .next t) :
    ∃ s' : State, s'.slots = s.slots ∧ s'.bus.port = p ∧ runWord request.cw s' = .next t := by
  have hchanged : (t.port p).queue ≠ (s.port p).queue := fun heq =>
    List.cons_ne_self request _ (hqueue.symm.trans heq.symm)
  obtain ⟨-, rfl⟩ | ⟨s', hmove, rfl⟩ | ⟨q, b, s', hmove, hturn⟩ := step_cases h
  · exact absurd rfl hchanged
  · obtain ⟨-, hport, -⟩ := State.nextMove_frame hmove
    exact absurd (by rw [State.hardReset_port, hport]) hchanged
  · obtain ⟨hslots, hport, -⟩ := State.nextMove_frame hmove
    rw [← hport p] at hqueue hchanged
    by_cases hq : p = q
    · subst hq
      obtain ⟨-, rfl⟩ | ⟨-, -, rfl⟩ | ⟨request', rest, s'', -, hqueue', rfl, hrun⟩ := turn_cases hturn
      · exact absurd (s'.advance_onlyPort p b).queue hchanged
      · exact absurd rfl hchanged
      · obtain ⟨rfl, -⟩ := List.cons.inj (hqueue'.symm.trans hqueue)
        refine ⟨_, ?_, ?_, hrun⟩
        · exact hslots
        · rfl
    · exact absurd (congrArg PortState.queue ((turn_frame hturn).1 p hq)) hchanged

/-! ### An `ENC` and the values it samples (R60, R65) -/

/-- The frame an op returns is made of the values it has sampled. -/
theorem Job.frame_of_answer {j : Job} {f : Vector Byte 25} (h : j.answer = .okFrame f) :
    f = pack j.samples := by
  unfold Job.answer at h
  split at h
  · cases h
  · cases h
  · exact (OpResult.okFrame.inj h).symm

/-- An op that only samples, and whose every value is one that `held` admits or is still to be sampled. -/
structure Job.Encoding (held : Fin 16 → Chan → Prop) (j : Job) : Prop where
  samplesOnly : j.allEvents SlotEvent.isSample = true
  value : ∀ k, j.reads k ∨ held k j.samples[k]

/-- A burst samples what the registers hold. -/
theorem Job.Encoding.run {held held' : Fin 16 → Chan → Prop} {j : Job} (h : j.Encoding held) {sl : Slots}
    (hmono : ∀ k v, held k v → held' k v) (hnow : ∀ k, held' k (sl.getCh k)) (b : Burst) :
    (Job.run b (sl, j)).2.Encoding held' := by
  obtain ⟨-, hall, -, hvalue⟩ := Job.sampling_run b (sl, j) h.samplesOnly
  refine ⟨hall, fun k => ?_⟩
  obtain hread | ⟨hsame, hpending⟩ := hvalue k
  · exact .inr (hread ▸ hnow k)
  · exact (h.value k).imp hpending fun hk => hsame ▸ hmono k _ hk

/-- An `ENC` begins with every value still to be sampled. -/
theorem Job.encoding_start (held : Fin 16 → Chan → Prop) :
    (Job.start .frame (Stage.ofList encodeReads)).Encoding held where
  samplesOnly := by decide
  value := fun k => .inl (by
    simpa [Job.start] using (Job.reads_ofList .frame (Vector.replicate 16 0#11) encodeReads [] k).mpr
      (.inl (List.mem_map_of_mem (List.mem_finRange k))))

/-- A port on which an `ENC` is in progress, or a frame stands, whose values are ones that `held` admits. -/
structure PortState.Encoding (held : Fin 16 → Chan → Prop) (q : PortState) : Prop where
  job : ∀ j, q.job = some j → j.Encoding held ∧ q.result = none
  frame : ∀ f, q.result = some (.okFrame f) → ∃ v : Vector Chan 16, f = pack v ∧ ∀ k : Fin 16, held k v[k]

theorem PortState.Encoding.mono {held held' : Fin 16 → Chan → Prop} {q : PortState} (h : q.Encoding held)
    (hmono : ∀ k v, held k v → held' k v) : q.Encoding held' where
  job := fun j hj =>
    (h.job j hj).imp_left fun hj => ⟨hj.samplesOnly, fun k => (hj.value k).imp_right (hmono k _)⟩
  frame := fun f hf =>
    (h.frame f hf).imp fun _ hv => hv.imp_right fun hv k => hmono k _ (hv k)

/-- A port without an op in progress on which no frame stands but one of the values `held` admits. -/
theorem PortState.encoding_of_no_job {held : Fin 16 → Chan → Prop} {q : PortState} (hj : q.job = none)
    (hframe : ∀ f, q.result = some (.okFrame f) → ∃ v : Vector Chan 16, f = pack v ∧ ∀ k : Fin 16, held k v[k]) :
    q.Encoding held :=
  ⟨fun _ hjob => (nomatch hj.symm.trans hjob), hframe⟩

/-- What a burst leaves of an `ENC` is in progress, or its frame has every value sampled. -/
theorem PortState.encoding_settled {held : Fin 16 → Chan → Prop} {j : Job} (h : j.Encoding held)
    (q : PortState) : (q.settled j).Encoding held := by
  obtain ⟨hdone, hjob, hresult⟩ | ⟨hjob, hresult⟩ := q.settled_cases j
  · refine PortState.encoding_of_no_job hjob fun f hf => ⟨j.samples, ?_, fun k => ?_⟩
    · exact Job.frame_of_answer (Option.some.inj (hresult.symm.trans hf))
    · refine (h.value k).resolve_left fun ⟨st, hst, _⟩ => ?_
      rw [hdone] at hst
      cases hst
  · exact ⟨fun j' hj' => ⟨Option.some.inj (hjob.symm.trans hj') ▸ h, hresult⟩,
      fun f hf => nomatch hresult.symm.trans hf⟩

/-! ### The first turn of an `ENC` -/

/-- An op on TX is answered at once, with a frame only if it is that of the store, or is an `ENC` that does its first
burst (R241, R170). -/
theorem runWord_tx {w : Word} {s t : State} (hport : s.bus.port = .tx) (h : runWord w s = .next t) :
    (∃ r, t = s.answer r ∧ ∀ f, r = .okFrame f → f = pack s.slots.ch) ∨
      ∃ b, t = s.settle .tx (Job.run b (s.slots, Job.start .frame (Stage.ofList encodeReads))) := by
  have hrefused : s.answer .illegal = t →
      ∃ r, t = s.answer r ∧ ∀ f, r = .okFrame f → f = pack s.slots.ch :=
    fun ht => ⟨.illegal, ht.symm, fun _ hf => nomatch hf⟩
  unfold runWord at h
  split at h
  case h_2 => exact .inl (hrefused (Host.Outcome.next.inj h))
  rename_i i _
  cases hacc : i.acceptedOn s.bus.port with
  | false => exact .inl (hrefused (Host.Outcome.next.inj ((exec_of_not_accepted hacc).symm.trans h)))
  | true =>
    cases i with
    | nop =>
      have hexec : exec .nop s = .next (s.answer .ok) := State.ifAccepted_of_accepted (i := .nop) hacc _
      cases hexec.symm.trans h
      exact .inl ⟨.ok, rfl, fun _ hf => nomatch hf⟩
    | enc =>
      have hexec : exec .enc s = .next (s.launch (Job.start .frame (Stage.ofList encodeReads))
          (s.slots, .okFrame (pack s.slots.ch))) := State.ifAccepted_of_accepted (i := .enc) hacc _
      cases hexec.symm.trans h
      unfold State.launch
      split
      · exact .inl ⟨_, rfl, fun f hf => (OpResult.okFrame.inj hf).symm⟩
      · exact .inr ⟨s.bus.burst, by rw [hport]⟩
    | _ =>
      rw [hport] at hacc
      exact absurd hacc (by simp [Instr.acceptedOn])

/-- The turn that takes a request of TX samples what the registers hold. -/
theorem encoding_of_request {s t : State} {request : Request} {held : Fin 16 → Chan → Prop}
    (hqueue : (s.port .tx).queue = request :: (t.port .tx).queue) (h : step s = .next t)
    (hnow : ∀ k, held k (s.slots.getCh k)) : (t.port .tx).Encoding held := by
  obtain ⟨s', hslots, hport, hrun⟩ := step_of_request hqueue h
  rw [← hslots] at hnow
  obtain ⟨r, rfl, hframe⟩ | ⟨b, rfl⟩ := runWord_tx hport hrun
  · rw [← hport, State.answer_port_self]
    exact PortState.encoding_of_no_job rfl fun f hf =>
      ⟨s'.slots.ch, hframe f (Option.some.inj hf), hnow⟩
  · rw [State.settle_port]
    exact PortState.encoding_settled ((Job.encoding_start held).run (fun _ _ => id) hnow b) _

/-! ### A run from the request to the frame -/

/-- The value `v` is one that channel register `k` held at a turn of TX before step `i`. -/
def heldBefore (run : Nat → State) (i : Nat) (k : Fin 16) (v : Chan) : Prop :=
  ∃ i', i' < i ∧ v = (run i').slots.getCh k ∧ (run (i' + 1)).port .tx ≠ (run i').port .tx

theorem heldBefore_succ {run : Nat → State} {i : Nat} (k : Fin 16) (v : Chan) (h : heldBefore run i k v) :
    heldBefore run (i + 1) k v :=
  h.imp fun _ ⟨hlt, hv⟩ => ⟨Nat.lt_succ_of_lt hlt, hv⟩

/-- A step after the first turn of an `ENC` adds to the values sampled what the registers hold, if it is a turn of
TX. -/
theorem encoding_step {run : Nat → State} {i : Nat} (hstep : step (run i) = .next (run (i + 1)))
    (hjob : ((run i).port .tx).job.isSome = true)
    (h : ((run i).port .tx).Encoding (heldBefore run i)) :
    ((run (i + 1)).port .tx).Encoding (heldBefore run (i + 1)) := by
  by_cases hsame : (run (i + 1)).port .tx = (run i).port .tx
  · rw [hsame]
    exact h.mono heldBefore_succ
  · obtain ⟨j, hj⟩ := Option.isSome_iff_exists.mp hjob
    obtain ⟨hencoding, hresult⟩ := h.job j hj
    obtain heq | hreset | ⟨b, hburst⟩ := step_port_of_job hj hstep
    · exact absurd heq hsame
    · rw [hreset]
      exact PortState.encoding_of_no_job rfl fun f hf => nomatch hresult.symm.trans hf
    · rw [hburst]
      exact PortState.encoding_settled (hencoding.run heldBefore_succ
        (fun k => ⟨i, Nat.lt_succ_self i, rfl, hsame⟩) b) _

/-- What an `ENC` in progress does in one step to the values it has sampled. -/
theorem sampled_in_step {s t : State} {j : Job} (hinv : s.Inv) (hj : (s.port .tx).job = some j)
    (h : step s = .next t) :
    (∀ j', (t.port .tx).job = some j' →
      j'.ret = j.ret ∧ ∀ k : Fin 16, j'.samples[k] = j.samples[k] ∨ j'.samples[k] = s.slots.getCh k) ∧
    ∀ f, (t.port .tx).result = some (.okFrame f) →
      ∃ v : Vector Chan 16, f = pack v ∧ ∀ k : Fin 16, v[k] = j.samples[k] ∨ v[k] = s.slots.getCh k := by
  obtain ⟨-, hjobs⟩ := s.inv_iff.mp hinv
  obtain ⟨hlegal, -, hresult⟩ := hjobs .tx j hj
  obtain hsame | hreset | ⟨b, hburst⟩ := step_port_of_job hj h
  · rw [hsame, hj, hresult]
    exact ⟨fun j' hj' => Option.some.inj hj' ▸ ⟨rfl, fun _ => .inl rfl⟩, fun f hf => nomatch hf⟩
  · rw [hreset, hresult]
    exact ⟨fun j' hj' => (nomatch hj'), fun f hf => nomatch hf⟩
  · have htx : SlotEvent.allowedOn .tx = SlotEvent.isSample := funext fun e => by cases e <;> rfl
    obtain ⟨-, -, hret, hvalue⟩ := Job.sampling_run b (s.slots, j) (htx ▸ hlegal.lane)
    have hsampled (k : Fin 16) := (hvalue k).symm.imp_left And.left
    obtain ⟨-, hjob, hanswer⟩ | ⟨hjob, hnone⟩ :=
      (s.port .tx).settled_cases (Job.run b (s.slots, j)).2
    · rw [hburst, hjob, hanswer]
      exact ⟨fun j' hj' => (nomatch hj'),
        fun f hf => ⟨_, Job.frame_of_answer (Option.some.inj hf), hsampled⟩⟩
    · rw [hburst, hjob, hnone]
      exact ⟨fun j' hj' => Option.some.inj hj' ▸ ⟨hret, hsampled⟩, fun f hf => nomatch hf⟩

/-- Settles O52: the step by the bursts of an `ENC`; the run by what each of its steps adds to the values sampled. -/
theorem sampledValuesComeFromTheStore : Obligations.SampledValuesComeFromTheStore := by
  refine ⟨fun s t j hinv hj h => sampled_in_step hinv hj h, ?_⟩
  intro run n request f hrun hqueue hjobs hframe
  have hfirst : ((run 1).port .tx).Encoding (heldBefore run 1) := by
    refine encoding_of_request hqueue (hrun 0 (Nat.succ_pos n)) fun k => ⟨0, Nat.one_pos, rfl, fun heq => ?_⟩
    exact List.cons_ne_self request _ (hqueue.symm.trans (congrArg PortState.queue heq.symm))
  have hall : ∀ i, i ≤ n → ((run (i + 1)).port .tx).Encoding (heldBefore run (i + 1)) := by
    intro i hi
    induction i with
    | zero => exact hfirst
    | succ i ih =>
      exact encoding_step (hrun (i + 1) (Nat.succ_lt_succ hi)) (hjobs (i + 1) (Nat.succ_pos i) hi)
        (ih (Nat.le_of_succ_le hi))
  obtain ⟨v, hv, hheld⟩ := (hall n le_rfl).frame f hframe
  exact ⟨v, hv, fun k => (hheld k).imp fun _ ⟨hlt, hv⟩ => ⟨Nat.le_of_lt_succ hlt, hv⟩⟩

end Sys2Proof.Machine
end

section
/-! SUPPORT. Programs P5 and P6 (95_test_vectors.md): runs of the machine in slot orders that R62 admits. -/

namespace Sys2Proof.Machine

/-- Settles O53: `ENC` between the two steps of the `POLL`, and the `POLL` between the first read of the `ENC` and the
others. -/
theorem tornFramesOccur : Obligations.TornFramesOccur :=
  ⟨⟨_, rfl, _, rfl, rfl, rfl, rfl, rfl⟩, ⟨_, rfl, _, rfl, rfl, rfl, rfl, rfl⟩⟩

/-- Settles O54: `SET` before, after and inside the `POLL`, there between the read of its step and the write. -/
theorem lostUpdatesOccur : Obligations.LostUpdatesOccur :=
  ⟨⟨_, rfl, rfl⟩, ⟨_, rfl, rfl⟩, ⟨_, rfl, rfl⟩⟩

end Sys2Proof.Machine
end

section
/-! SUPPORT. The decoder and the opcode map (30_encoding.md R90 to R102): what a word decodes to by its op field, how a
word is put together from its fields, the rows of the map by format, the pseudo-ops, and the words and ops that are
answered `ILLEGAL`. -/

namespace Sys2Proof

/-- Settles O37: op field, zero field and operands are cut out of the word where they were put. -/
theorem decodingAnEncodedOpReturnsIt : Obligations.DecodingAnEncodedOpReturnsIt := decode_encode

/-! ### The decoder, one op field at a time (R91 to R97) -/

/-- What a word can decode to, by its op field; a legal op still has its zero field to pass. -/
inductive DecodesTo (w : Word) : Except DecodeError Instr → Prop where
  | nop (hop : opField w = 0#4) : DecodesTo w (ifZero (opField w) (w.extractLsb' 0 28) .nop)
  | get (hop : opField w = 1#4) :
      DecodesTo w (ifZero (opField w) (w.extractLsb' 4 24) (.get (w.extractLsb' 0 4).toFin))
  | set (hop : opField w = 2#4) :
      DecodesTo w (ifZero (opField w) (w.extractLsb' 15 13)
        (.set (w.extractLsb' 11 4).toFin (w.extractLsb' 0 11)))
  | rstn (hop : opField w = 3#4) : DecodesTo w (ifZero (opField w) (w.extractLsb' 0 28) .rstn)
  | poll (hop : opField w = 4#4) :
      DecodesTo w (ifZero (opField w) (w.extractLsb' 22 6) (.poll (w.extractLsb' 0 22)))
  | enc (hop : opField w = 5#4) : DecodesTo w (ifZero (opField w) (w.extractLsb' 0 28) .enc)
  | dec (hop : opField w = 6#4) :
      DecodesTo w (ifZero (opField w) (w.extractLsb' 8 20) (.dec (w.extractLsb' 0 8)))
  | reserved (hop : 7 ≤ (opField w).toNat) : DecodesTo w (.error (.reservedOp (opField w)))

theorem decodesTo_decode (w : Word) : DecodesTo w (decode w) := by
  unfold decode
  dsimp only
  split
  next h => exact .nop (BitVec.eq_of_toNat_eq h)
  next h => exact .get (BitVec.eq_of_toNat_eq h)
  next h => exact .set (BitVec.eq_of_toNat_eq h)
  next h => exact .rstn (BitVec.eq_of_toNat_eq h)
  next h => exact .poll (BitVec.eq_of_toNat_eq h)
  next h => exact .enc (BitVec.eq_of_toNat_eq h)
  next h => exact .dec (BitVec.eq_of_toNat_eq h)
  next => exact .reserved (by grind)

theorem ifZero_eq_ok {n : Nat} {op : BitVec 4} {zero : BitVec n} {i j : Instr}
    (h : ifZero op zero i = .ok j) : zero = 0#n ∧ i = j := by
  unfold ifZero at h
  split at h
  · exact ⟨‹_›, Except.ok.inj h⟩
  · cases h

/-! ### A word and its fields -/

/-- A word is put together from its op, zero and operand fields. -/
theorem append_fields {z n : Nat} {w : BitVec (4 + z + n)} {op : BitVec 4} {zero : BitVec z}
    (hop : w.extractLsb' (z + n) 4 = op) (hzero : w.extractLsb' n z = zero) :
    op ++ zero ++ w.extractLsb' 0 n = w := by
  rw [← hop, ← hzero, BitVec.extractLsb'_append_extractLsb'_eq_extractLsb' (Nat.add_comm z n),
    BitVec.extractLsb'_append_extractLsb'_eq_extractLsb' (Nat.zero_add n).symm,
    BitVec.extractLsb'_eq_self]

/-- So is a word of format Z, which has no operand (R91). -/
theorem append_fields_formatZ {w : Word} {op : BitVec 4} (hop : opField w = op)
    (hzero : w.extractLsb' 0 28 = 0#28) : op ++ 0#28 = w :=
  (BitVec.append_zero_width _ _).symm.trans (append_fields (z := 28) (n := 0) hop hzero)

/-- Settles O38: the op field of a legal word is the op's, its zero field is 0, and the rest is the operands. -/
theorem legalWordIsTheWordOfItsOp : Obligations.LegalWordIsTheWordOfItsOp := by
  intro w i hi
  have hw := decodesTo_decode w
  rw [hi] at hw
  generalize hd : Except.ok i = d at hw
  cases hw with
  | nop hop =>
    obtain ⟨hzero, rfl⟩ := ifZero_eq_ok hd.symm
    exact append_fields_formatZ hop hzero
  | get hop =>
    obtain ⟨hzero, rfl⟩ := ifZero_eq_ok hd.symm
    exact append_fields (z := 24) (n := 4) hop hzero
  | set hop =>
    obtain ⟨hzero, rfl⟩ := ifZero_eq_ok hd.symm
    have hoperands : w.extractLsb' 11 4 ++ w.extractLsb' 0 11 = w.extractLsb' 0 15 :=
      BitVec.extractLsb'_append_extractLsb'_eq_extractLsb' rfl
    have hword := append_fields (z := 13) (n := 15) hop hzero
    rw [← hoperands] at hword
    exact BitVec.append_assoc.trans hword
  | rstn hop =>
    obtain ⟨hzero, rfl⟩ := ifZero_eq_ok hd.symm
    exact append_fields_formatZ hop hzero
  | poll hop =>
    obtain ⟨hzero, rfl⟩ := ifZero_eq_ok hd.symm
    exact append_fields (z := 6) (n := 22) hop hzero
  | enc hop =>
    obtain ⟨hzero, rfl⟩ := ifZero_eq_ok hd.symm
    exact append_fields_formatZ hop hzero
  | dec hop =>
    obtain ⟨hzero, rfl⟩ := ifZero_eq_ok hd.symm
    exact append_fields (z := 20) (n := 8) hop hzero
  | reserved => cases hd

/-! ### The opcode map (R96) -/

/-- The row of an op with `n` bits of operands below a zero field of `z` bits. -/
def formatRow (mnemonic : String) (op : BitVec 4) (z n : Nat) : OpcodeRow where
  mnemonic := mnemonic
  pattern := (op ++ 0#z ++ 0#n).setWidth 32
  mask := (BitVec.allOnes 4 ++ BitVec.allOnes z ++ 0#n).setWidth 32

/-- The constants of R96 are the formats of R91 to R95. -/
theorem opcodeRows_eq_formatRows : opcodeRows =
    [formatRow "NOP" 0#4 28 0, formatRow "GET" 1#4 24 4, formatRow "SET" 2#4 13 15,
      formatRow "RSTN" 3#4 28 0, formatRow "POLL" 4#4 6 22, formatRow "ENC" 5#4 28 0,
      formatRow "DEC" 6#4 20 8] := by decide

/-- Masking a word's operand away leaves its op and zero fields. -/
theorem and_mask {z n : Nat} (w : BitVec (4 + z + n)) :
    w &&& (BitVec.allOnes 4 ++ BitVec.allOnes z ++ 0#n) =
      w.extractLsb' (z + n) 4 ++ w.extractLsb' n z ++ 0#n := by
  conv_lhs => rw [← append_fields (w := w) rfl rfl]
  simp only [BitVec.and_append, BitVec.and_allOnes, BitVec.and_zero]

theorem and_mask_eq_pattern_iff {z n m : Nat} (h : 4 + z + n = m) (op : BitVec 4) (w : BitVec m) :
    w &&& (BitVec.allOnes 4 ++ BitVec.allOnes z ++ 0#n).setWidth m = (op ++ 0#z ++ 0#n).setWidth m ↔
      w.extractLsb' (z + n) 4 = op ∧ w.extractLsb' n z = 0#z := by
  subst h
  rw [BitVec.setWidth_eq, BitVec.setWidth_eq, and_mask]
  constructor
  · intro h
    obtain ⟨hop, hzero, -⟩ := extractLsb'_fields op 0#z 0#n
    obtain ⟨hop', hzero', -⟩ := extractLsb'_fields (w.extractLsb' (z + n) 4) (w.extractLsb' n z) 0#n
    rw [h] at hop' hzero'
    exact ⟨hop'.symm.trans hop, hzero'.symm.trans hzero⟩
  · rintro ⟨hop, hzero⟩
    rw [hop, hzero]

/-- A word matches a row when it has the row's op field and a zero field of 0. -/
theorem formatRow_matches {z n : Nat} (h : z + n = 28) (mnemonic : String) (op : BitVec 4) (w : Word) :
    (formatRow mnemonic op z n).matches w = true ↔ opField w = op ∧ w.extractLsb' n z = 0#z := by
  rw [OpcodeRow.matches, beq_iff_eq, opField, ← h]
  exact and_mask_eq_pattern_iff (by omega) op w

/-- The mnemonic of the op a word decodes to, if there is one. -/
def decodedMnemonic (d : Except DecodeError Instr) : List String :=
  match d with
  | .ok i => [i.mnemonic]
  | .error _ => []

theorem decodedMnemonic_ifZero {n : Nat} (op : BitVec 4) (zero : BitVec n) (i : Instr) :
    decodedMnemonic (ifZero op zero i) = if zero = 0#n then [i.mnemonic] else [] := by
  unfold ifZero
  split <;> rfl

/-- Settles O36: the op field singles out one row or none, and the zero field decides both the match and the
decoding. -/
theorem decoderFollowsTheOpcodeMap : Obligations.DecoderFollowsTheOpcodeMap := by
  intro w
  change _ = decodedMnemonic (decode w)
  simp only [opcodeRows_eq_formatRows, List.filter_cons, List.filter_nil, formatRow_matches]
  have hw := decodesTo_decode w
  generalize decode w = d at hw
  cases hw with
  | reserved hop =>
    have hne (op : BitVec 4) (h : op.toNat < 7) : opField w ≠ op := by
      rintro rfl
      omega
    simp [hne, decodedMnemonic]
  | _ hop =>
    rw [decodedMnemonic_ifZero]
    simp [hop, apply_ite, formatRow, Instr.mnemonic]

/-- Settles O39: each word is decoded by evaluation. -/
theorem workedEncodingsDecode : Obligations.WorkedEncodingsDecode := by
  unfold Obligations.WorkedEncodingsDecode
  decide

/-! ### Pseudo-ops (R101) -/

theorem indexOfNumber_of_channel {n : Nat} (h : 1 ≤ n ∧ n ≤ 16) :
    indexOfNumber n = some ⟨n - 1, by omega⟩ := dif_pos h

theorem indexOfNumber_of_no_channel {n : Nat} (h : ¬(1 ≤ n ∧ n ≤ 16)) : indexOfNumber n = none :=
  dif_neg h

/-- Settles O40: the channel number gives the index, or none; the other pseudo-ops name no channel number. -/
theorem pseudoOpsExpandAsTheTable : Obligations.PseudoOpsExpandAsTheTable := by
  refine ⟨fun n val h => ?_, fun n val h => ?_, rfl, fun _ _ => ⟨rfl, rfl⟩, rfl⟩
  · simp only [Pseudo.expand, indexOfNumber_of_channel h, Option.map_some, and_self]
  · simp only [Pseudo.expand, indexOfNumber_of_no_channel h, Option.map_none, and_self]

end Sys2Proof

namespace Sys2Proof.Machine

/-! ### Illegal words and wrong ports (R97, R233) -/

/-- An illegal word is answered `ILLEGAL` (R97). -/
theorem runWord_of_decode_error {w : Word} {e : DecodeError} (s : State) (h : decode w = .error e) :
    runWord w s = .next (s.answer .illegal) := by
  simp only [runWord, h]

/-- Settles O43: the turn takes the request, and the answer touches only its port. -/
theorem illegalWordIsAnsweredIllegal : Obligations.IllegalWordIsAnsweredIllegal := by
  intro s p b rest r q e hsched hjob hqueue hdecode
  have hturn := turn_of_request (s := { s with sched := rest }) b hjob hqueue
  refine ⟨_, (step_of_act hsched).trans (hturn.trans (runWord_of_decode_error _ hdecode)), rfl, ?_,
    fun p' hp' => ?_, rfl, rfl⟩
  · exact (State.answer_port_self _ _).trans (by simp)
  · exact (State.answer_port_ne _ _ hp').trans (State.port_setPort_ne _ hp' _)

/-- Settles O44: every op but `NOP` is accepted on its owner alone, and answering changes only the port. -/
theorem wrongPortIsAnsweredIllegal : Obligations.WrongPortIsAnsweredIllegal := by
  rintro i s ⟨hnop, hport⟩
  have haccepted : i.acceptedOn s.bus.port = false := by
    cases i with
    | nop => exact absurd rfl hnop
    | _ => exact beq_false_of_ne hport
  exact ⟨_, exec_of_not_accepted haccepted, s.answer_completes .illegal⟩

end Sys2Proof.Machine
end

section
/-! SUPPORT. The bytes of a frame and the fields of a buffer as numbers (30_encoding.md R82, R85). -/

namespace Sys2Proof.Machine

/-! ### The payload bytes as numbers (R82) -/

/-- Bit `r` of payload byte `i`. -/
theorem testBit_payloadByte (t : Vector Chan 16) {i r : Nat} (hi : i < 22) (hr : r < 8) :
    ((pack t)[1 + i]'(by omega)).toNat.testBit r =
      (t[(8 * i + r) / 11]'(by omega)).toNat.testBit ((8 * i + r) % 11) := by
  have hbyte : (8 * i + r) / 8 = i := by omega
  have hbit : (8 * i + r) % 8 = r := by omega
  have h := streamBitsStandWhereTheRulePutsThem t (8 * i + r) (by omega)
  simpa only [hbyte, hbit, BitVec.testBit_toNat] using h

/-- A bit vector is the number that has its bits and no higher ones. -/
theorem toNat_eq_of_testBit {n x : Nat} {b : BitVec n} (hlow : ∀ r < n, b.toNat.testBit r = x.testBit r)
    (hhigh : ∀ r ≥ n, x.testBit r = false) : b.toNat = x := by
  refine Nat.eq_of_testBit_eq fun r => ?_
  obtain hr | hr := Nat.lt_or_ge r n
  · exact hlow r hr
  · rw [hhigh r hr, BitVec.testBit_toNat, BitVec.getLsbD_of_ge b r hr]

/-- A payload byte that begins at bit 0 to 3 of a channel lies within that channel. -/
theorem payloadByte_of_one (t : Vector Chan 16) (i : Nat) (hi : i < 22 := by decide)
    (h : 8 * i % 11 ≤ 3 := by decide) :
    ((pack t)[1 + i]'(by omega)).toNat = (t[8 * i / 11]'(by omega)).toNat >>> (8 * i % 11) &&& (2 ^ 8 - 1) := by
  refine toNat_eq_of_testBit (fun r hr => ?_) fun r hr => ?_
  · have hch : (8 * i + r) / 11 = 8 * i / 11 := by omega
    have hbit : (8 * i + r) % 11 = 8 * i % 11 + r := by omega
    simp only [testBit_payloadByte t hi hr, hch, hbit, Nat.testBit_and, Nat.testBit_two_pow_sub_one,
      Nat.testBit_shiftRight, hr, decide_true, Bool.and_true]
  · rw [Nat.testBit_and, Nat.testBit_two_pow_sub_one, decide_eq_false (Nat.not_lt.mpr hr), Bool.and_false]

/-- Any other payload byte has the last `m` bits of one channel and then the first bits of the next. -/
theorem payloadByte_of_two (t : Vector Chan 16) (i m : Nat) (hi : i < 22 := by decide)
    (hm : 8 * i % 11 + m = 11 := by decide) (h : m < 8 := by decide) :
    ((pack t)[1 + i]'(by omega)).toNat =
      ((t[8 * i / 11]'(by omega)).toNat >>> (8 * i % 11) &&& (2 ^ m - 1)) |||
        ((t[8 * i / 11 + 1]'(by omega)).toNat <<< m &&& (2 ^ (8 - m) - 1) <<< m) := by
  refine toNat_eq_of_testBit (fun r hr => ?_) fun r hr => ?_
  · rw [testBit_payloadByte t hi hr]
    simp only [Nat.testBit_or, Nat.testBit_and, Nat.testBit_shiftRight, Nat.testBit_shiftLeft,
      Nat.testBit_two_pow_sub_one]
    obtain hrm | hrm := Nat.lt_or_ge r m
    · have hch : (8 * i + r) / 11 = 8 * i / 11 := by omega
      have hbit : (8 * i + r) % 11 = 8 * i % 11 + r := by omega
      simp [hch, hbit, hrm]
    · have hch : (8 * i + r) / 11 = 8 * i / 11 + 1 := by omega
      have hbit : (8 * i + r) % 11 = r - m := by omega
      have hlt : r - m < 8 - m := by omega
      simp [hch, hbit, hrm, hlt, Nat.not_lt.mpr hrm]
  · have hrm : ¬r < m := by omega
    have hlt : ¬r - m < 8 - m := by omega
    simp [hrm, hlt]

/-- Settles O27: each of the 22 bytes is of one channel or of two, as its first stream bit says. -/
theorem payloadBytesAreTheMaskedShifts : Obligations.PayloadBytesAreTheMaskedShifts := by
  intro t
  exact ⟨payloadByte_of_one t 0, payloadByte_of_two t 1 3, payloadByte_of_two t 2 6,
    payloadByte_of_one t 3, payloadByte_of_two t 4 1, payloadByte_of_two t 5 4,
    payloadByte_of_two t 6 7, payloadByte_of_one t 7, payloadByte_of_two t 8 2,
    payloadByte_of_two t 9 5, payloadByte_of_one t 10, payloadByte_of_one t 11,
    payloadByte_of_two t 12 3, payloadByte_of_two t 13 6, payloadByte_of_one t 14,
    payloadByte_of_two t 15 1, payloadByte_of_two t 16 4, payloadByte_of_two t 17 7,
    payloadByte_of_one t 18, payloadByte_of_two t 19 2, payloadByte_of_two t 20 5,
    payloadByte_of_one t 21⟩

/-! ### The extracted fields as numbers (R85) -/

/-- Field `k` is cut out of three bytes (R191). -/
theorem toNat_unpack (buf : Buf) (k : Fin 12) : (unpack buf k).toNat =
    ((buf[1 + 11 * k.val / 8]'(by omega)).toNat >>> (11 * k.val % 8) |||
      (buf[1 + 11 * k.val / 8 + 1]'(by omega)).toNat <<< (8 - 11 * k.val % 8) |||
      (buf[1 + 11 * k.val / 8 + 2]'(by omega)).toNat <<< (16 - 11 * k.val % 8)) &&& (2 ^ 11 - 1) := by
  have hmask : (0x07FF#24).toNat = 2 ^ 11 - 1 := rfl
  have hmid : 11 * k.val % 8 ≤ 8 := by omega
  have hhigh : 11 * k.val % 8 ≤ 8 + 8 := by omega
  simp only [unpack, BitVec.toNat_setWidth, BitVec.toNat_and, BitVec.toNat_ushiftRight,
    BitVec.toNat_append, Nat.shiftLeft_or_distrib, Nat.shiftRight_or_distrib, ← Nat.shiftLeft_add,
    ← Nat.shiftLeft_sub _ hmid, ← Nat.shiftLeft_sub _ hhigh]
  rw [← Nat.and_two_pow_sub_one_eq_mod, hmask, Nat.and_assoc, Nat.and_self, Nat.or_comm,
    Nat.or_comm (_ <<< _), ← Nat.or_assoc]

/-- Bits from bit 11 on do not reach a channel value. -/
theorem or_shiftLeft_and_chan (x y : Nat) {n : Nat} (h : 11 ≤ n) :
    (x ||| y <<< n) &&& (2 ^ 11 - 1) = x &&& (2 ^ 11 - 1) := by
  have hzero : y <<< n &&& (2 ^ 11 - 1) = 0 := by
    rw [Nat.and_two_pow_sub_one_eq_mod, Nat.shiftLeft_eq]
    exact Nat.mod_eq_zero_of_dvd (Dvd.dvd.mul_left (pow_dvd_pow 2 h) y)
  rw [Nat.and_or_distrib_right, hzero, Nat.or_zero]

/-- A field that begins at bit 0 to 5 of a byte ends in the next one. -/
theorem toNat_unpack_of_two (buf : Buf) (k : Fin 12) (h : 11 * k.val % 8 ≤ 5 := by decide) :
    (unpack buf k).toNat =
      ((buf[1 + 11 * k.val / 8]'(by omega)).toNat >>> (11 * k.val % 8) |||
        (buf[1 + 11 * k.val / 8 + 1]'(by omega)).toNat <<< (8 - 11 * k.val % 8)) &&& (2 ^ 11 - 1) :=
  (toNat_unpack buf k).trans (or_shiftLeft_and_chan _ _ (by omega))

/-- Settles O33: nine of the twelve fields end in their second byte, fields 2, 5 and 10 in the third. -/
theorem extractedFieldsAreTheShiftedBytes : Obligations.ExtractedFieldsAreTheShiftedBytes := by
  intro buf
  exact ⟨toNat_unpack_of_two buf 0, toNat_unpack_of_two buf 1, toNat_unpack buf 2,
    toNat_unpack_of_two buf 3, toNat_unpack_of_two buf 4, toNat_unpack buf 5,
    toNat_unpack_of_two buf 6, toNat_unpack_of_two buf 7, toNat_unpack_of_two buf 8,
    toNat_unpack_of_two buf 9, toNat_unpack buf 10, toNat_unpack_of_two buf 11⟩

end Sys2Proof.Machine
end

section
/-! SUPPORT. The Channel Store ops `NOP`, `GET`, `SET`, `RSTN` from end to end (40_channel_store.md R120 to R124): on a
port that owns the op, with no other agent's slot events between its own. -/

namespace Sys2Proof.Machine

/-! ### Undisturbed ops complete (R66, R276) -/

/-- Beginning an undisturbed op completes it. -/
theorem State.launch_completes {s : State} {job : Job} {a : Slots × OpResult} (h : s.Undisturbed)
    (hjob : job.Performs s.slots a) : Completes s (s.launch job a) a.1 a.2 := by
  obtain ⟨hslots, hdone, hresult, -⟩ := State.answer_completes { s with slots := a.1 } a.2
  rw [← State.launch_undisturbed h hjob] at hslots hdone hresult
  exact ⟨hslots, hdone, hresult, s.launch_onlyPort job a⟩

/-- So an undisturbed op that its meaning begins as a job is complete in the next state, on a port that owns it. -/
theorem State.ifAccepted_completes {s : State} {i : Instr} {job : Job} {a : Slots × OpResult}
    (hacc : i.acceptedOn s.bus.port = true) (h : s.Undisturbed) (hjob : job.Performs s.slots a) :
    ∃ t, s.ifAccepted i (s.launch job a) = .next t ∧ Completes s t a.1 a.2 :=
  ⟨_, State.ifAccepted_of_accepted hacc _, State.launch_completes h hjob⟩

/-! ### The four ops -/

/-- Settles O6: the 27 writes in any order are `reset_to_neutral`, which is read slot by slot. -/
theorem rstnRestoresNeutralAndKeepsLatches : Obligations.RstnRestoresNeutralAndKeepsLatches := by
  intro s hport h
  obtain ⟨t, ht, hc⟩ := State.ifAccepted_completes (i := .rstn) (by rw [hport]; rfl) h
    (Job.performs_rstn s.slots)
  refine ⟨t, ht, ?_⟩
  rw [hc.slots]
  exact ⟨hc, fun k => (Slots.getCh_resetToNeutral s.slots k).trans (neutral_getElem k),
    Slots.getSw_resetToNeutral s.slots, Slots.getLatch_resetToNeutral s.slots⟩

/-- Settles O3: every port accepts `NOP`, and it is only answered. -/
theorem nopReturnsOkAndChangesNothing : Obligations.NopReturnsOkAndChangesNothing := fun s =>
  ⟨_, State.ifAccepted_of_accepted (s := s) (i := .nop) rfl _, s.answer_completes .ok⟩

/-- Settles O4: the one read samples the register. -/
theorem getReturnsTheChannelValue : Obligations.GetReturnsTheChannelValue := fun idx s hport h =>
  State.ifAccepted_completes (i := .get idx) (by rw [hport]; rfl) h (Job.performs_get idx s.slots)

/-- Settles O5: the one write is to `CH[idx]`, and every other slot reads as before it. -/
theorem setWritesOneChannelOnly : Obligations.SetWritesOneChannelOnly := by
  intro idx val s hport h
  obtain ⟨t, ht, hc⟩ := State.ifAccepted_completes (i := .set idx val) (by rw [hport]; rfl) h
    (Job.performs_set idx val s.slots)
  refine ⟨t, ht, ?_⟩
  rw [hc.slots]
  exact ⟨hc, Slots.getCh_setCh_self s.slots idx val, fun _ hk => Slots.getCh_setCh_ne s.slots hk val,
    Slots.getSw_setCh s.slots idx val, Slots.getLatch_setCh s.slots idx val⟩

end Sys2Proof.Machine
end

section
/-! SUPPORT. What one tick does to each slot (41_input_mapper.md R142 to R150): the 16 actions other than `KRST` read
slot by slot, and a tick as these actions with or without the reset. -/

namespace Sys2Proof.Machine

/-! ### One action among others that leave its slot -/

/-- Actions that each leave what is read leave it. -/
theorem read_foldl_frame {σ ι β : Type} {act : σ → ι → σ} {read : σ → β} {l : List ι}
    (h : ∀ s, ∀ i ∈ l, read (act s i) = read s) (s : σ) : read (l.foldl act s) = read s :=
  List.foldlRecOn l act (motive := fun s' => read s' = read s) rfl
    fun s' hs' i hi => (h s' i hi).trans hs'

/-- Of a list of actions only the one at `i` changes what is read, and it occurs once. -/
theorem read_foldl_of_nodup {σ ι β : Type} {act : σ → ι → σ} {read : σ → β} {f : β → β} {i : ι}
    (hself : ∀ s, read (act s i) = f (read s)) (hother : ∀ s j, j ≠ i → read (act s j) = read s)
    {l : List ι} (hl : l.Nodup) (hi : i ∈ l) (s : σ) : read (l.foldl act s) = f (read s) := by
  induction l generalizing s with
  | nil => cases hi
  | cons j l ih =>
    obtain ⟨hj, hl⟩ := List.nodup_cons.mp hl
    rw [List.foldl_cons]
    obtain rfl | hi := List.mem_cons.mp hi
    · rw [← hself]
      exact read_foldl_frame (fun s j hj' => hother s j fun h => hj (h ▸ hj')) _
    · rw [ih hl hi, hother s j fun h => hj (h ▸ hi)]

/-! ### `STEP` -/

/-- What `STEP` of channel `k` leaves of a channel value: the value it writes, if it writes one. -/
def steppedValue (keys : BitVec 22) (k : Fin 4) (v : Chan) : Chan :=
  ((stepDir (incKey keys k) (decKey keys k)).bind (stepValue · v)).getD v

theorem Slots.getCh_step_self (sl : Slots) (keys : BitVec 22) (k : Fin 4) :
    (sl.step keys k).getCh (stepCh k) = steppedValue keys k (sl.getCh (stepCh k)) := by
  unfold Slots.step steppedValue
  split
  · rename_i hdir
    rw [hdir]
    rfl
  · rename_i dir hdir
    rw [hdir, Option.bind_some]
    split
    · rename_i v hv
      rw [hv, Slots.getCh_setCh_self]
      rfl
    · rename_i hv
      rw [hv]
      rfl

/-- A step up over natural numbers (R142(d)): the bound test keeps the addition from wrapping. -/
theorem toNat_stepValue_up (v : Chan) :
    ((stepValue .up v).getD v).toNat = if v.toNat < 1680 then v.toNat + 10 else v.toNat := by
  change ((if v.toNat < 1680 then some (v + 10#11) else none).getD v).toNat = _
  split
  · rw [Option.getD_some]
    bv_omega
  · rfl

/-- A step down over natural numbers (R142(d)): the bound test keeps the subtraction from wrapping. -/
theorem toNat_stepValue_down (v : Chan) :
    ((stepValue .down v).getD v).toNat = if v.toNat > 360 then v.toNat - 10 else v.toNat := by
  change ((if v.toNat > 360 then some (v - 10#11) else none).getD v).toNat = _
  split
  · rw [Option.getD_some]
    bv_omega
  · rfl

/-- `STEP` over natural numbers, the increment key first (R142(a)). -/
theorem toNat_steppedValue (keys : BitVec 22) (k : Fin 4) (v : Chan) :
    (steppedValue keys k v).toNat =
      if incKey keys k then (if v.toNat < 1680 then v.toNat + 10 else v.toNat)
      else if decKey keys k then (if v.toNat > 360 then v.toNat - 10 else v.toNat)
      else v.toNat := by
  unfold steppedValue
  cases incKey keys k with
  | true => exact toNat_stepValue_up v
  | false =>
    cases decKey keys k with
    | true => exact toNat_stepValue_down v
    | false => rfl

theorem stepCh_injective {k k' : Fin 4} : stepCh k = stepCh k' ↔ k = k' := by revert k k'; decide

/-! ### Values and edges (R143 to R145) -/

/-- `EDGE` writes the sampled level into the latch, or leaves it there (R144). -/
theorem Slots.edge_eq_setLatch (sl : Slots) (keys : BitVec 22) (key : EdgeKey) :
    sl.edge keys key = sl.setLatch key.latch (key.level keys) := by
  refine Slots.eq_of_reads (fun _ => by simp) (fun _ => by simp) fun m => ?_
  by_cases hm : m = key.latch
  · rw [hm, Slots.getLatch_edge_self, Slots.getLatch_setLatch_self]
  · rw [Slots.getLatch_edge_ne sl keys hm, Slots.getLatch_setLatch_ne sl hm]

/-- `SNAP` as a choice of values (R143). -/
theorem snapValue_getD (hi lo : Bool) (v : Chan) :
    (snapValue hi lo).getD v = if hi then 1680#11 else if lo then 360#11 else v := by
  cases hi <;> cases lo <;> rfl

theorem toNat_nextPos (s : Pos) : (nextPos s).toNat = s.toNat % 3 + 1 := by revert s; decide

/-- `SWVAL` of a legal position (R7, R145). -/
theorem swValue_of_ne_zero (s : Pos) (h : s ≠ 0#2) :
    swValue s = if s.toNat = 1 then 500#11 else if s.toNat = 2 then 1000#11 else 1500#11 := by
  revert s; decide

theorem Slots.fires_iff (sl : Slots) (keys : BitVec 22) (key : EdgeKey) :
    sl.fires keys key = true ↔ key.level keys = true ∧ sl.getLatch key.latch = false := by
  simp [Slots.fires]

theorem Slots.fires_eq_false_iff (sl : Slots) (keys : BitVec 22) (key : EdgeKey) :
    sl.fires keys key = false ↔ (key.level keys = true → sl.getLatch key.latch = true) := by
  simp [Slots.fires]

theorem Slots.not_fires_of_up (sl : Slots) {keys : BitVec 22} {key : EdgeKey} (h : key.level keys = false) :
    sl.fires keys key = false :=
  (sl.fires_eq_false_iff keys key).mpr fun hl => absurd hl (Bool.eq_false_iff.mp h)

/-! ### The 16 actions other than `KRST`, slot by slot (R147) -/

/-- The toggle keys change no channel that is not theirs. -/
theorem Slots.getCh_foldl_tog (sl : Slots) (keys : BitVec 22) {c : Fin 16} (h : ∀ j, c ≠ swch j)
    (l : List (Fin 11)) : (l.foldl (fun sl j => sl.tog keys j) sl).getCh c = sl.getCh c :=
  read_foldl_frame (read := (Slots.getCh · c)) (fun sl j _ => sl.getCh_tog_ne keys (h j)) sl

theorem Slots.getCh_mapActions_stepCh (sl : Slots) (keys : BitVec 22) (k : Fin 4) :
    (sl.mapActions keys).getCh (stepCh k) = steppedValue keys k (sl.getCh (stepCh k)) := by
  rw [Slots.mapActions, Slots.getCh_foldl_tog _ keys fun j => (swch_ne_stepCh j k).symm,
    Slots.getCh_snap_ne _ keys (stepCh_ne_snapCh k)]
  exact read_foldl_of_nodup (read := (Slots.getCh · (stepCh k)))
    (fun sl => sl.getCh_step_self keys k)
    (fun sl k' hk => sl.getCh_step_ne keys fun h => hk (stepCh_injective.mp h).symm)
    (List.nodup_finRange 4) (List.mem_finRange k) sl

theorem Slots.getCh_mapActions_snapCh (sl : Slots) (keys : BitVec 22) :
    (sl.mapActions keys).getCh snapCh = (snapValue (hiKey keys) (loKey keys)).getD (sl.getCh snapCh) := by
  have hsteps : ((List.finRange 4).foldl (fun sl k => sl.step keys k) sl).getCh snapCh = sl.getCh snapCh :=
    read_foldl_frame (read := (Slots.getCh · snapCh))
      (fun sl k _ => sl.getCh_step_ne keys (stepCh_ne_snapCh k).symm) sl
  rw [Slots.mapActions, Slots.getCh_foldl_tog _ keys fun j => (swch_ne_snapCh j).symm, Slots.snap]
  split
  · rename_i v hv
    rw [hv, Slots.getCh_setCh_self]
    rfl
  · rename_i hv
    rw [hv, hsteps]
    rfl

/-- A toggle key that fires advances its slot and channel; one that does not leaves them (R145). -/
theorem Slots.mapActions_toggle (sl : Slots) (keys : BitVec 22) (j : Fin 11) :
    ((sl.mapActions keys).getSw j, (sl.mapActions keys).getCh (swch j)) =
      if sl.fires keys (.tog j) then (nextPos (sl.getSw j), swValue (nextPos (sl.getSw j)))
      else (sl.getSw j, sl.getCh (swch j)) := by
  obtain ⟨sl', hbefore, hafter⟩ := sl.mapActions_tog keys j
  rw [hafter.sw, hafter.ch, Slots.tog_self, hbefore.fires_eq, hbefore.sw, hbefore.ch]

theorem Slots.mapActions_of_fires {sl : Slots} {keys : BitVec 22} {j : Fin 11}
    (h : sl.fires keys (.tog j) = true) : (sl.mapActions keys).getSw j = nextPos (sl.getSw j) ∧
      (sl.mapActions keys).getCh (swch j) = swValue (nextPos (sl.getSw j)) :=
  Prod.mk.inj ((sl.mapActions_toggle keys j).trans (if_pos h))

theorem Slots.mapActions_of_not_fires {sl : Slots} {keys : BitVec 22} {j : Fin 11}
    (h : sl.fires keys (.tog j) = false) : (sl.mapActions keys).getSw j = sl.getSw j ∧
      (sl.mapActions keys).getCh (swch j) = sl.getCh (swch j) :=
  Prod.mk.inj ((sl.mapActions_toggle keys j).trans (if_neg (Bool.eq_false_iff.mp h)))

theorem Slots.getLatch_mapActions_tog (sl : Slots) (keys : BitVec 22) (j : Fin 11) :
    (sl.mapActions keys).getLatch (EdgeKey.tog j).latch = (EdgeKey.tog j).level keys := by
  obtain ⟨sl', -, hafter⟩ := sl.mapActions_tog keys j
  rw [hafter.latch, Slots.getLatch_tog, Slots.getLatch_edge_self]

/-! ### The reset key and the other actions -/

/-- The 16 actions read no key but their own. -/
theorem Slots.mapActions_congr {keys keys' : BitVec 22} (h : ∀ i, i < 21 → keys.getLsbD i = keys'.getLsbD i)
    (sl : Slots) : sl.mapActions keys = sl.mapActions keys' := by
  have hstep (sl : Slots) (k : Fin 4) : sl.step keys k = sl.step keys' k := by
    simp only [Slots.step, incKey, decKey, h (2 * k.val) (by omega), h (2 * k.val + 1) (by omega)]
  have hsnap (sl : Slots) : sl.snap keys = sl.snap keys' := by
    simp only [Slots.snap, hiKey, loKey, h 8 (by decide), h 9 (by decide)]
  have hlevel (j : Fin 11) : (EdgeKey.tog j).level keys = (EdgeKey.tog j).level keys' :=
    h (10 + j.val) (by omega)
  have htog (sl : Slots) (j : Fin 11) : sl.tog keys j = sl.tog keys' j := by
    simp only [Slots.tog, Slots.fires, Slots.edge_eq_setLatch, hlevel]
  simp only [Slots.mapActions, hstep, hsnap, htog]

theorem EdgeKey.tog_latch_ne_rst (j : Fin 11) : (EdgeKey.tog j).latch ≠ EdgeKey.rst.latch :=
  fun h => EdgeKey.noConfusion (EdgeKey.latch_injective.mp h)

theorem Slots.setLatch_comm (sl : Slots) {m m' : Fin 12} (h : m ≠ m') (b b' : Bool) :
    (sl.setLatch m b).setLatch m' b' = (sl.setLatch m' b').setLatch m b := by
  simp only [Slots.setLatch, Vector.set_comm _ _ (Fin.val_ne_of_ne h)]

theorem Slots.step_setLatch (sl : Slots) (keys : BitVec 22) (k : Fin 4) (m : Fin 12) (b : Bool) :
    (sl.setLatch m b).step keys k = (sl.step keys k).setLatch m b := by
  simp only [Slots.step, Slots.getCh_setLatch]
  split
  · rfl
  · split <;> rfl

theorem Slots.snap_setLatch (sl : Slots) (keys : BitVec 22) (m : Fin 12) (b : Bool) :
    (sl.setLatch m b).snap keys = (sl.snap keys).setLatch m b := by
  unfold Slots.snap
  split <;> rfl

theorem Slots.tog_setLatch (sl : Slots) (keys : BitVec 22) (j : Fin 11) {m : Fin 12}
    (h : m ≠ (EdgeKey.tog j).latch) (b : Bool) :
    (sl.setLatch m b).tog keys j = (sl.tog keys j).setLatch m b := by
  have hfires : (sl.setLatch m b).fires keys (.tog j) = sl.fires keys (.tog j) :=
    Slots.fires_congr keys (.tog j) (sl.getLatch_setLatch_ne h.symm b)
  simp only [Slots.tog, hfires, Slots.edge_eq_setLatch, sl.setLatch_comm h]
  split <;> rfl

/-- The 16 actions neither read nor write the latch of the reset key. -/
theorem Slots.mapActions_setLatch_rst (sl : Slots) (keys : BitVec 22) (b : Bool) :
    (sl.setLatch EdgeKey.rst.latch b).mapActions keys = (sl.mapActions keys).setLatch EdgeKey.rst.latch b := by
  simp only [Slots.mapActions]
  rw [List.foldl_hom (fun sl : Slots => sl.setLatch EdgeKey.rst.latch b)
      (fun sl k => sl.step_setLatch keys k _ b), Slots.snap_setLatch,
    List.foldl_hom (fun sl : Slots => sl.setLatch EdgeKey.rst.latch b)
      (fun sl j => sl.tog_setLatch keys j (EdgeKey.tog_latch_ne_rst j).symm b)]

/-- With no key held the 16 actions only clear the latches of the toggle keys. -/
theorem Slots.mapActions_zero (sl : Slots) : sl.mapActions 0#22 =
    (List.finRange 11).foldl (fun sl j => sl.setLatch (EdgeKey.tog j).latch false) sl := by
  have hstep (sl : Slots) (k : Fin 4) : sl.step 0#22 k = sl := by
    simp [Slots.step, incKey, decKey, stepDir]
  have htog (sl : Slots) (j : Fin 11) : sl.tog 0#22 j = sl.setLatch (EdgeKey.tog j).latch false := by
    simp [Slots.tog, Slots.fires, Slots.edge_eq_setLatch, EdgeKey.level]
  simp only [Slots.mapActions, hstep, htog, List.foldl_fixed]
  rfl

theorem Slots.mapActions_zero_resetToNeutral (sl : Slots) :
    sl.resetToNeutral.mapActions 0#22 = (sl.mapActions 0#22).resetToNeutral := by
  rw [Slots.mapActions_zero, Slots.mapActions_zero]
  exact List.foldl_hom Slots.resetToNeutral fun _ _ => rfl

/-! ### A tick (R147, R150) -/

/-- A tick in which the reset does not fire is the 16 actions, and the latch of the reset key takes its level. -/
theorem Slots.pollTick_of_not_fires {sl : Slots} {keys : BitVec 22} (h : sl.fires keys .rst = false)
    (order : ResetOrder) :
    sl.pollTick order keys = (sl.mapActions keys).setLatch EdgeKey.rst.latch (EdgeKey.rst.level keys) := by
  cases order with
  | last =>
    have h' : (sl.mapActions keys).fires keys .rst = false :=
      (Slots.fires_congr keys .rst (sl.getLatch_mapActions_rst keys)).trans h
    rw [Slots.pollTick, Slots.krst_of_not_fires _ keys h', Slots.edge_eq_setLatch]
  | first =>
    rw [Slots.pollTick, Slots.krst_of_not_fires _ keys h, Slots.edge_eq_setLatch,
      Slots.mapActions_setLatch_rst]

/-- One in which it fires last restores the neutral configuration after them. -/
theorem Slots.pollTick_last_of_fires {sl : Slots} {keys : BitVec 22} (h : sl.fires keys .rst = true) :
    sl.pollTick .last keys =
      (sl.mapActions keys).resetToNeutral.setLatch EdgeKey.rst.latch (EdgeKey.rst.level keys) := by
  have h' : (sl.mapActions keys).fires keys .rst = true :=
    (Slots.fires_congr keys .rst (sl.getLatch_mapActions_rst keys)).trans h
  rw [Slots.pollTick, Slots.krst_of_fires _ keys h', Slots.edge_eq_setLatch]
  rfl

/-- One in which it fires first does the 16 actions from the neutral configuration. -/
theorem Slots.pollTick_first_of_fires {sl : Slots} {keys : BitVec 22} (h : sl.fires keys .rst = true) :
    sl.pollTick .first keys =
      (sl.resetToNeutral.mapActions keys).setLatch EdgeKey.rst.latch (EdgeKey.rst.level keys) := by
  rw [Slots.pollTick, Slots.krst_of_fires _ keys h, Slots.edge_eq_setLatch, ← Slots.mapActions_setLatch_rst]
  rfl

/-- A tick is the 16 actions and the reset in some order, and then the latch of the reset key takes its level: the
toggle keys act from the neutral configuration if the reset fires first, and a reset that fires last undoes them. -/
theorem Slots.pollTick_cases (sl : Slots) (order : ResetOrder) (keys : BitVec 22) :
    ∃ sl', sl.pollTick order keys = sl'.setLatch EdgeKey.rst.latch (EdgeKey.rst.level keys) ∧
      ((sl.fires keys .rst = false ∧ sl' = sl.mapActions keys) ∨
        (sl.fires keys .rst = true ∧ order = .last ∧ sl' = (sl.mapActions keys).resetToNeutral) ∨
        (sl.fires keys .rst = true ∧ order = .first ∧ sl' = sl.resetToNeutral.mapActions keys)) := by
  cases h : sl.fires keys .rst with
  | false => exact ⟨_, Slots.pollTick_of_not_fires h order, .inl ⟨rfl, rfl⟩⟩
  | true =>
    cases order with
    | last => exact ⟨_, Slots.pollTick_last_of_fires h, .inr (.inl ⟨rfl, rfl, rfl⟩)⟩
    | first => exact ⟨_, Slots.pollTick_first_of_fires h, .inr (.inr ⟨rfl, rfl, rfl⟩)⟩

theorem Slots.getLatch_pollTick (sl : Slots) (order : ResetOrder) (keys : BitVec 22) (key : EdgeKey) :
    (sl.pollTick order keys).getLatch key.latch = key.level keys := by
  obtain ⟨sl', htick, hcases⟩ := sl.pollTick_cases order keys
  rw [htick]
  cases key with
  | rst => exact sl'.getLatch_setLatch_self _ _
  | tog j =>
    rw [Slots.getLatch_setLatch_ne _ (EdgeKey.tog_latch_ne_rst j)]
    obtain ⟨-, rfl⟩ | ⟨-, -, rfl⟩ | ⟨-, -, rfl⟩ := hcases <;>
      exact Slots.getLatch_mapActions_tog _ keys j

/-- A toggle key that fires when the reset does not advances its slot (R145). -/
theorem Slots.getSw_pollTick_of_fires {sl : Slots} {keys : BitVec 22} {j : Fin 11} (order : ResetOrder)
    (hrst : sl.fires keys .rst = false) (h : sl.fires keys (.tog j) = true) :
    (sl.pollTick order keys).getSw j = nextPos (sl.getSw j) := by
  rw [Slots.pollTick_of_not_fires hrst, Slots.getSw_setLatch]
  exact (Slots.mapActions_of_fires h).1

/-- When neither fires the tick leaves slot and channel. -/
theorem Slots.pollTick_toggle_of_not_fires {sl : Slots} {keys : BitVec 22} {j : Fin 11} (order : ResetOrder)
    (hrst : sl.fires keys .rst = false) (h : sl.fires keys (.tog j) = false) :
    (sl.pollTick order keys).getSw j = sl.getSw j ∧
      (sl.pollTick order keys).getCh (swch j) = sl.getCh (swch j) := by
  rw [Slots.pollTick_of_not_fires hrst]
  exact Slots.mapActions_of_not_fires h

end Sys2Proof.Machine
end

section
/-! SUPPORT. The Input Mapper op `POLL` from end to end (41_input_mapper.md R140 to R152): one tick with and without the
reset, and ticks one after another. -/

namespace Sys2Proof.Machine

/-- Settles O10: the stages of a tick in any order of their events are the tick. -/
theorem pollIsOneTick : Obligations.PollIsOneTick := fun keys s hport h =>
  State.ifAccepted_completes (i := .poll keys) (by rw [hport]; rfl) h
    (Job.performs_poll s.params.resetOrder keys s.slots)

/-! ### Level keys in a tick in which the reset does not fire (R142, R143) -/

/-- Settles O11: the 16 actions leave the value `STEP` leaves. -/
theorem stepIsGuardedByTheBounds : Obligations.StepIsGuardedByTheBounds := by
  intro sl order keys k h
  rw [Slots.pollTick_of_not_fires h, Slots.getCh_setLatch, Slots.getCh_mapActions_stepCh]
  exact toNat_steppedValue keys k _

/-- Settles O12: a rise starts below 1680, a fall above 360. -/
theorem stepOvershootIsBounded : Obligations.StepOvershootIsBounded := by
  intro sl order keys k h
  rw [stepIsGuardedByTheBounds sl order keys k h]
  dsimp only
  split_ifs <;> omega

/-- Settles O13: the 16 actions leave the value `SNAP` writes, if it writes one. -/
theorem snapSetsChannelSix : Obligations.SnapSetsChannelSix := by
  intro sl order keys h
  rw [Slots.pollTick_of_not_fires h, Slots.getCh_setLatch]
  exact (sl.getCh_mapActions_snapCh keys).trans (snapValue_getD _ _ _)

/-! ### Latches (R144, R146) -/

/-- Settles O14: `EDGE` of each key leaves the sampled level, and no other action touches a latch. -/
theorem latchIsTheSampledLevel : Obligations.LatchIsTheSampledLevel := fun sl order keys =>
  ⟨fun j => sl.getLatch_pollTick order keys (.tog j), sl.getLatch_pollTick order keys .rst⟩

/-! ### A firing reset (R146, R150) -/

/-- Settles O16: the reset comes after the other actions and writes all of `CH` and `SW`. -/
theorem resetKeyLastEndsNeutral : Obligations.ResetKeyLastEndsNeutral := by
  intro sl keys hlevel hlatch
  rw [Slots.pollTick_last_of_fires ((sl.fires_iff keys .rst).mpr ⟨hlevel, hlatch⟩)]
  exact ⟨neutral_getElem, Slots.getSw_resetToNeutral (sl.mapActions keys)⟩

/-- Settles O17: the 16 actions begin from the neutral values and the latches as they were. -/
theorem resetKeyFirstActsFromNeutral : Obligations.ResetKeyFirstActsFromNeutral := by
  intro sl keys hlevel hlatch
  rw [Slots.pollTick_first_of_fires ((sl.fires_iff keys .rst).mpr ⟨hlevel, hlatch⟩)]
  have hneutral : ∀ k : Fin 4, neutral[stepCh k] = 1000#11 := by decide
  have hdiscrete : ∀ j, neutral[swch j] = 500#11 := by decide
  refine ⟨fun k => ?_, ?_, fun j => ?_⟩
  · rw [Slots.getCh_setLatch, Slots.getCh_mapActions_stepCh, Slots.getCh_resetToNeutral, hneutral]
    unfold steppedValue incKey decKey
    cases keys.getLsbD (2 * k.val) <;> cases keys.getLsbD (2 * k.val + 1) <;> rfl
  · exact (Slots.getCh_mapActions_snapCh _ keys).trans (snapValue_getD _ _ _)
  · rw [Slots.getSw_setLatch, Slots.getCh_setLatch]
    have hfires := sl.resetToNeutral.fires_iff keys (.tog j)
    split
    · obtain ⟨hsw, hch⟩ := Slots.mapActions_of_fires (hfires.mpr ‹_›)
      rw [hsw, hch, Slots.getSw_resetToNeutral]
      exact ⟨rfl, rfl⟩
    · obtain ⟨hsw, hch⟩ := Slots.mapActions_of_not_fires (Bool.eq_false_iff.mpr (mt hfires.mp ‹_›))
      rw [hsw, hch, Slots.getSw_resetToNeutral, Slots.getCh_resetToNeutral, hdiscrete]
      exact ⟨rfl, rfl⟩

/-! ### Toggle keys (R145) -/

/-- Settles O15: unless the reset fires last the tick is the 16 actions from the slots before it, neutral ones when
the reset fires first; `TOG` reads and writes only its own slots. -/
theorem toggleAdvancesOnPressEdge : Obligations.ToggleAdvancesOnPressEdge := by
  intro sl order keys j sl' ch before
  split
  case isTrue hlast =>
    obtain ⟨hfires, rfl⟩ := hlast
    obtain ⟨hlevel, hlatch⟩ := (sl.fires_iff keys .rst).mp hfires
    obtain ⟨hch, hsw⟩ := resetKeyLastEndsNeutral sl keys hlevel hlatch
    have hdiscrete : ∀ j, ¬((swch j).val < 4 ∨ (swch j).val = 5) := by decide
    exact ⟨hsw j, (hch (swch j)).trans (if_neg (hdiscrete j))⟩
  case isFalse hlast =>
    have htick : sl' = (before.mapActions keys).setLatch EdgeKey.rst.latch (EdgeKey.rst.level keys) := by
      obtain ⟨sl'', htick, ⟨hrst, rfl⟩ | ⟨hrst, rfl, -⟩ | ⟨hrst, rfl, rfl⟩⟩ := sl.pollTick_cases order keys
      · simpa [before, hrst] using htick
      · exact absurd ⟨hrst, rfl⟩ hlast
      · simpa [before, hrst] using htick
    have hlatch : before.getLatch (EdgeKey.tog j).latch = sl.getLatch (EdgeKey.tog j).latch := by
      simp only [before]
      split <;> rfl
    have hfires := before.fires_iff keys (.tog j)
    rw [hlatch] at hfires
    rw [htick]
    split
    · obtain ⟨hsw, hch⟩ := Slots.mapActions_of_fires (hfires.mpr ‹_›)
      rw [Slots.getSw_setLatch, hsw]
      exact ⟨toNat_nextPos _, hch.trans (swValue_of_ne_zero _ (nextPos_ne_zero _))⟩
    · exact Slots.mapActions_of_not_fires (Bool.eq_false_iff.mpr (mt hfires.mp ‹_›))

/-! ### The reset key and the other keys (R146, R150) -/

/-- Settles O18: the reset fires neither with the key held nor with it up, and no other action reads it. -/
theorem heldResetKeyHasNoEffect : Obligations.HeldResetKeyHasNoEffect := by
  intro sl order keys hlevel hlatch held up
  have hothers : ∀ i, i < 21 → keys.getLsbD i = (keys &&& ~~~BitVec.twoPow 22 21).getLsbD i := by
    intro i hi
    rw [BitVec.getLsbD_and, BitVec.getLsbD_not, BitVec.getLsbD_twoPow]
    simp [show i < 22 by omega, show ¬21 = i by omega]
  have hheldTick := Slots.pollTick_of_not_fires ((sl.fires_eq_false_iff keys .rst).mpr fun _ => hlatch) order
  have hupTick := Slots.pollTick_of_not_fires ((sl.fires_eq_false_iff _ .rst).mpr fun _ => hlatch) order
    (keys := keys &&& ~~~BitVec.twoPow 22 21)
  rw [← Slots.mapActions_congr hothers] at hupTick
  refine ⟨?_, ?_, fun m hm => ?_, (sl.getLatch_pollTick order keys .rst).trans hlevel⟩
  all_goals simp only [held, up, hheldTick, hupTick]
  · exact fun k => rfl
  · exact fun j => rfl
  · have hm : m ≠ EdgeKey.rst.latch := hm
    rw [Slots.getLatch_setLatch_ne _ hm, Slots.getLatch_setLatch_ne _ hm]

/-- Settles O19: without a reset both orders do the same 16 actions; with no other key held these write latches only,
which `reset_to_neutral` leaves alone. -/
theorem resetOrdersAgreeWithoutOtherKeys : Obligations.ResetOrdersAgreeWithoutOtherKeys := by
  intro sl keys h
  cases hfires : sl.fires keys .rst with
  | false => rw [Slots.pollTick_of_not_fires hfires, Slots.pollTick_of_not_fires hfires]
  | true =>
    obtain rfl := h.resolve_left (by simp [hfires])
    have hothers : ∀ i, i < 21 → (BitVec.twoPow 22 21).getLsbD i = (0#22).getLsbD i := by decide
    rw [Slots.pollTick_first_of_fires hfires, Slots.pollTick_last_of_fires hfires,
      Slots.mapActions_congr hothers, Slots.mapActions_congr hothers, Slots.mapActions_zero_resetToNeutral]

/-! ### Toggle keys over several ticks (R151) -/

/-- A toggle key that stays held leaves its slots as they are. -/
theorem Slots.sameToggle_pollTick_of_held {sl : Slots} {keys : BitVec 22} {j : Fin 11} (order : ResetOrder)
    (hrst : sl.fires keys .rst = false) (hlevel : (EdgeKey.tog j).level keys = true)
    (hlatch : sl.getLatch (EdgeKey.tog j).latch = true) :
    Slots.SameToggle j (sl.pollTick order keys) sl := by
  obtain ⟨hsw, hch⟩ := Slots.pollTick_toggle_of_not_fires order hrst
    ((sl.fires_eq_false_iff keys (.tog j)).mpr fun _ => hlatch)
  exact ⟨hsw, hch, (sl.getLatch_pollTick order keys (.tog j)).trans (hlevel.trans hlatch.symm)⟩

/-- Settles O20: the first sample is the press edge, and latches the key; at every further one it stays held. -/
theorem heldToggleAdvancesOnce : Obligations.HeldToggleAdvancesOnce := by
  intro sl order samples j hne hall hlatch sl'
  cases samples with
  | nil => exact absurd rfl hne
  | cons keys rest =>
    obtain ⟨⟨hlevel, hup⟩, hrest⟩ := List.forall_mem_cons.mp hall
    have hrst := sl.not_fires_of_up (key := .rst) hup
    have hfires := (sl.fires_iff keys (.tog j)).mpr ⟨hlevel, hlatch⟩
    have hlatched : (sl.pollTick order keys).getLatch (EdgeKey.tog j).latch = true :=
      (sl.getLatch_pollTick order keys (.tog j)).trans hlevel
    have hheld : Slots.SameToggle j sl' (sl.pollTick order keys) :=
      List.foldlRecOn rest _ (motive := (Slots.SameToggle j · (sl.pollTick order keys))) (.refl j _)
        fun held hsame keys' hkeys' =>
          (Slots.sameToggle_pollTick_of_held order (held.not_fires_of_up (hrest keys' hkeys').2)
            (hrest keys' hkeys').1 (hsame.latch.trans hlatched)).trans hsame
    refine ⟨?_, hheld.coupled_iff.mpr (Slots.coupled_pollTick_of_fires order hrst hfires)⟩
    rw [hheld.sw, Slots.getSw_pollTick_of_fires order hrst hfires, toNat_nextPos]

/-- A toggle key held at one tick and up at the next, no other key held at either (R151). -/
def Slots.press (order : ResetOrder) (j : Fin 11) (sl : Slots) : Slots :=
  (sl.pollTick order (BitVec.twoPow 22 (10 + j.val))).pollTick order 0#22

theorem Slots.getLatch_press (sl : Slots) (order : ResetOrder) (j : Fin 11) :
    (sl.press order j).getLatch (EdgeKey.tog j).latch = false :=
  (Slots.getLatch_pollTick _ order 0#22 (.tog j)).trans (by simp [EdgeKey.level])

/-- A press of a key that is up makes one transition. -/
theorem Slots.press_of_up {sl : Slots} {j : Fin 11} (order : ResetOrder)
    (hlatch : sl.getLatch (EdgeKey.tog j).latch = false) :
    (sl.press order j).getSw j = nextPos (sl.getSw j) ∧ (sl.press order j).Coupled j := by
  have hkeys : ∀ j : Fin 11, EdgeKey.rst.level (BitVec.twoPow 22 (10 + j.val)) = false ∧
      (EdgeKey.tog j).level (BitVec.twoPow 22 (10 + j.val)) = true := by decide
  obtain ⟨hrstUp, hlevel⟩ := hkeys j
  have hrst := sl.not_fires_of_up hrstUp
  have hfires := (sl.fires_iff _ (.tog j)).mpr ⟨hlevel, hlatch⟩
  have hup (sl : Slots) (key : EdgeKey) : sl.fires 0#22 key = false :=
    sl.not_fires_of_up (by cases key <;> simp [EdgeKey.level])
  obtain ⟨hsw, hch⟩ := Slots.pollTick_toggle_of_not_fires (j := j) order (hup _ .rst) (hup _ _)
    (sl := sl.pollTick order (BitVec.twoPow 22 (10 + j.val)))
  have hcoupled := Slots.coupled_pollTick_of_fires order hrst hfires
  constructor
  · rw [Slots.press, hsw, Slots.getSw_pollTick_of_fires order hrst hfires]
  · rw [Slots.Coupled, Slots.press, hsw, hch]
    exact hcoupled

/-- Any number of presses of a key that is up: it is up again, and has advanced as often. -/
theorem Slots.press_iterate {sl : Slots} {j : Fin 11} (order : ResetOrder) (hpos : sl.getSw j ≠ 0#2)
    (hlatch : sl.getLatch (EdgeKey.tog j).latch = false) (n : Nat) :
    ((Slots.press order j)^[n] sl).getLatch (EdgeKey.tog j).latch = false ∧
      (((Slots.press order j)^[n] sl).getSw j).toNat = ((sl.getSw j).toNat - 1 + n) % 3 + 1 := by
  induction n with
  | zero =>
    have hlegal : ∀ p : Pos, p ≠ 0#2 → p.toNat = (p.toNat - 1 + 0) % 3 + 1 := by decide
    exact ⟨hlatch, hlegal _ hpos⟩
  | succ n ih =>
    obtain ⟨ihlatch, ihsw⟩ := ih
    rw [Function.iterate_succ_apply']
    refine ⟨Slots.getLatch_press _ order j, ?_⟩
    rw [(Slots.press_of_up order ihlatch).1, toNat_nextPos, ihsw]
    omega

/-- Settles O21: `n` presses leave the key up, and the next one couples slot and channel. -/
theorem pressesCycleThroughThreePositions : Obligations.PressesCycleThroughThreePositions := by
  intro sl order j n hpos hlatch press sl'
  refine ⟨(Slots.press_iterate order hpos hlatch (n + 1)).2, ?_⟩
  have hlast : sl' = ((Slots.press order j)^[n] sl).press order j := Function.iterate_succ_apply' _ n sl
  rw [hlast]
  exact (Slots.press_of_up order (Slots.press_iterate order hpos hlatch n).1).2

/-! ### The values `POLL` reaches (R152) -/

theorem Slots.pollReachable_resetToNeutral (sl : Slots) : sl.resetToNeutral.PollReachable where
  stepping := by simp only [Slots.getCh_resetToNeutral]; decide
  snap := .inl rfl
  swLegal := sl.swLegal_resetToNeutral
  coupled := sl.coupled_resetToNeutral

/-- The values do not speak of the latches. -/
theorem Slots.PollReachable.setLatch {sl : Slots} (h : sl.PollReachable) (m : Fin 12) (b : Bool) :
    (sl.setLatch m b).PollReachable := ⟨h.stepping, h.snap, h.swLegal, h.coupled⟩

/-- A stepping channel stays on its grid within the bounds, since 10 divides 360 and 1680 (R151(c)). -/
theorem Slots.PollReachable.mapActions {sl : Slots} (h : sl.PollReachable) (keys : BitVec 22) :
    (sl.mapActions keys).PollReachable where
  stepping := fun k => by
    obtain ⟨hlow, hhigh, hgrid⟩ := h.stepping k
    rw [Slots.getCh_mapActions_stepCh, toNat_steppedValue]
    split_ifs <;> omega
  snap := by
    have hsnap : (sl.mapActions keys).getCh 5 = _ :=
      (sl.getCh_mapActions_snapCh keys).trans (snapValue_getD _ _ _)
    rw [hsnap]
    split_ifs
    · exact .inr (.inr rfl)
    · exact .inr (.inl rfl)
    · exact h.snap
  swLegal := h.swLegal.mapActions keys
  coupled := fun j => by
    cases hfires : sl.fires keys (.tog j) with
    | true => exact Slots.coupled_mapActions_of_fires hfires
    | false =>
      obtain ⟨hsw, hch⟩ := Slots.mapActions_of_not_fires hfires
      rw [Slots.Coupled, hsw, hch]
      exact h.coupled j

/-- Settles O23: a tick is the 16 actions, from or followed by the neutral configuration if the reset fires. -/
theorem pollKeepsItsReachableValues : Obligations.PollKeepsItsReachableValues := by
  refine ⟨Slots.pollReachable_resetToNeutral Slots.reset, fun sl order keys h => ?_⟩
  obtain ⟨sl', htick, ⟨-, rfl⟩ | ⟨-, -, rfl⟩ | ⟨-, -, rfl⟩⟩ := sl.pollTick_cases order keys
  · exact htick ▸ (h.mapActions keys).setLatch _ _
  · exact htick ▸ (Slots.pollReachable_resetToNeutral _).setLatch _ _
  · exact htick ▸ ((Slots.pollReachable_resetToNeutral sl).mapActions keys).setLatch _ _

end Sys2Proof.Machine
end

section
/-! SUPPORT. The Frame Encoder: `ENC` from end to end (42_frame_encoder.md R170), and `pack` as a one-to-one map onto
the frames with the constant bytes (R172, R173). -/

namespace Sys2Proof.Machine

/-- Settles O25: the 16 reads in any order sample the registers as they stand. -/
theorem encReturnsTheFrameOfTheStore : Obligations.EncReturnsTheFrameOfTheStore := fun s hport h =>
  State.ifAccepted_completes (i := .enc) (by rw [hport]; rfl) h (Job.performs_enc s.slots)

/-! ### A frame is its constant bytes and its stream bits (R52, R80) -/

@[simp] theorem pack_header (t : Vector Chan 16) : (pack t)[0] = headerByte := by simp [pack, frameByte]

@[simp] theorem pack_flags (t : Vector Chan 16) : (pack t)[23] = flagsByte := by simp [pack, frameByte]

@[simp] theorem pack_footer (t : Vector Chan 16) : (pack t)[24] = footerByte := by simp [pack, frameByte]

/-- Stream bit `n` of 25 bytes, whatever they hold: it stands in byte `1 + n / 8` at position `n % 8` (R52). -/
def streamBit (f : Vector Byte 25) (n : Fin 176) : Bool := (f[1 + n.val / 8]'(by omega)).getLsbD (n.val % 8)

theorem streamBit_pack (t : Vector Chan 16) (n : Fin 176) :
    streamBit (pack t) n = (t[n.val / 11]'(by omega)).getLsbD (n.val % 11) :=
  streamBitsStandWhereTheRulePutsThem t n.val n.isLt

/-- Bytes 1 to 22 have no other bits than the stream bits. -/
theorem frame_ext {f g : Vector Byte 25} (hheader : f[0] = g[0]) (hflags : f[23] = g[23])
    (hfooter : f[24] = g[24]) (hbits : ∀ n, streamBit f n = streamBit g n) : f = g := by
  refine Vector.ext fun i hi => ?_
  obtain rfl | rfl | rfl | ⟨hlow, hhigh⟩ : i = 0 ∨ i = 23 ∨ i = 24 ∨ (1 ≤ i ∧ i ≤ 22) := by omega
  · exact hheader
  · exact hflags
  · exact hfooter
  · refine BitVec.eq_of_getLsbD_eq fun r hr => ?_
    have hbyte : 1 + (8 * (i - 1) + r) / 8 = i := by omega
    have hbit : (8 * (i - 1) + r) % 8 = r := by omega
    simpa only [streamBit, hbyte, hbit] using hbits ⟨8 * (i - 1) + r, by omega⟩

/-! ### The inverse of `pack` (R172) -/

/-- The 16 values that 25 bytes hold: bit `i` of value `k` is stream bit `11k + i` (R52). -/
def channelsOf (f : Vector Byte 25) : Vector Chan 16 :=
  Vector.ofFn fun k => BitVec.ofFnLE fun i : Fin 11 => streamBit f ⟨11 * k.val + i.val, by omega⟩

theorem getLsbD_channelsOf (f : Vector Byte 25) {k i : Nat} (hk : k < 16) (hi : i < 11) :
    (channelsOf f)[k].getLsbD i = streamBit f ⟨11 * k + i, by omega⟩ := by
  rw [channelsOf, Vector.getElem_ofFn, BitVec.getLsbD_ofFnLE, dif_pos hi]

theorem channelsOf_pack (t : Vector Chan 16) : channelsOf (pack t) = t := by
  refine Vector.ext fun k hk => BitVec.eq_of_getLsbD_eq fun i hi => ?_
  have hch : (11 * k + i) / 11 = k := by omega
  have hbit : (11 * k + i) % 11 = i := by omega
  simp only [getLsbD_channelsOf _ hk hi, streamBit_pack, hch, hbit]

theorem pack_channelsOf {f : Vector Byte 25} (hheader : f[0] = headerByte) (hflags : f[23] = flagsByte)
    (hfooter : f[24] = footerByte) : pack (channelsOf f) = f := by
  refine frame_ext ((pack_header _).trans hheader.symm) ((pack_flags _).trans hflags.symm)
    ((pack_footer _).trans hfooter.symm) fun n => ?_
  have hlt : n.val % 11 < 11 := Nat.mod_lt _ (by decide)
  have hn : 11 * (n.val / 11) + n.val % 11 = n.val := Nat.div_add_mod _ _
  simp only [streamBit_pack, getLsbD_channelsOf _ _ hlt, hn]

/-- Settles O28: `channelsOf` undoes `pack`, and `pack` undoes it on the frames with the constant bytes. -/
theorem packIsInjectiveOntoTheFrames : Obligations.PackIsInjectiveOntoTheFrames := by
  refine ⟨Function.LeftInverse.injective channelsOf_pack, fun f => ⟨?_, ?_⟩⟩
  · rintro ⟨t, rfl⟩
    exact ⟨pack_header t, pack_flags t, pack_footer t⟩
  · rintro ⟨hheader, hflags, hfooter⟩
    exact ⟨channelsOf f, pack_channelsOf hheader hflags hfooter⟩

/-! ### The bits of one channel (R173) -/

/-- Settles O29: a stream bit outside `11k` to `11k+10` is of another channel, and the constant bytes are of none. -/
theorem changingOneChannelChangesOnlyItsBits : Obligations.ChangingOneChannelChangesOnlyItsBits := by
  intro t t' k hothers
  refine ⟨by simp only [pack_header], by simp only [pack_flags], by simp only [pack_footer], fun n h hout => ?_⟩
  have hne : (⟨n / 11, by omega⟩ : Fin 16) ≠ k := Fin.ne_of_val_ne (show n / 11 ≠ k.val by omega)
  have hch : t[n / 11] = t'[n / 11] := hothers ⟨n / 11, by omega⟩ hne
  rw [streamBitsStandWhereTheRulePutsThem t n h, streamBitsStandWhereTheRulePutsThem t' n h, hch]

end Sys2Proof.Machine
end

section
/-! SUPPORT. The Frame Decoder op `DEC` of 25 bytes or more from end to end (43_frame_decoder.md R190 to R193). -/

namespace Sys2Proof.Machine

/-- A `DEC` of 25 bytes or more on RX completes with the 12 fields of the buffer, and no register changes (R190). -/
theorem exec_dec_completes {len : BitVec 8} {s : State} (hport : s.bus.port = .rx) (hlen : 25 ≤ len.toNat) :
    ∃ t, exec (.dec len) s = .next t ∧ Completes s t s.slots (.okDecoded (unpackAll s.bus.buf)) := by
  have hresult : decodeResult len s.bus.buf = .okDecoded (unpackAll s.bus.buf) :=
    if_neg (show ¬len.toNat < 25 from Nat.not_lt.mpr hlen)
  refine ⟨_, State.ifAccepted_of_accepted (i := .dec len) (by rw [hport]; rfl) _, ?_⟩
  rw [hresult]
  exact s.answer_completes _

theorem getElem_unpackAll (buf : Buf) (k : Fin 12) : (unpackAll buf)[k] = unpack buf k :=
  Vector.getElem_ofFn k.isLt

/-- Bit `i` of field `k` is stream bit `11k + i` of the frame the buffer begins with. -/
theorem getLsbD_unpack_of_frame {buf : Buf} {f : Vector Byte 25} (hbuf : ∀ i : Fin 25, buf[i.val] = f[i])
    (k : Fin 12) {i : Nat} (hi : i < 11) :
    (unpack buf k).getLsbD i = streamBit f ⟨11 * k.val + i, by omega⟩ := by
  have hbyte : buf[1 + (11 * k.val + i) / 8] = f[1 + (11 * k.val + i) / 8] :=
    hbuf ⟨1 + (11 * k.val + i) / 8, by omega⟩
  rw [getLsbD_unpack buf k hi, hbyte, streamBit]

/-- `unpack` undoes `pack` on the first 12 channels (R193). -/
theorem unpack_of_pack {buf : Buf} {v : Vector Chan 16} (hbuf : ∀ i : Fin 25, buf[i.val] = (pack v)[i])
    (k : Fin 12) : unpack buf k = v[k.val] := by
  refine BitVec.eq_of_getLsbD_eq fun i hi => ?_
  have hch : (11 * k.val + i) / 11 = k.val := by omega
  have hbit : (11 * k.val + i) % 11 = i := by omega
  simp only [getLsbD_unpack_of_frame hbuf k hi, streamBit_pack, hch, hbit]

/-- Settles O35: `DEC` answers the fields of the buffer, and those of a frame are the channels packed in it. -/
theorem decodingAnEncodedFrameReturnsTheChannels : Obligations.DecodingAnEncodedFrameReturnsTheChannels := by
  intro v len s hport hlen hbuf
  obtain ⟨t, ht, hc⟩ := exec_dec_completes hport hlen
  exact ⟨t, _, ht, hc, fun k => (getElem_unpackAll _ k).trans (unpack_of_pack hbuf k)⟩

/-- Settles O32: `DEC` answers the fields of the buffer, each read bit by bit. -/
theorem decReturnsTwelvePositionalValues : Obligations.DecReturnsTwelvePositionalValues := by
  intro len s hport hlen
  obtain ⟨t, ht, hc⟩ := exec_dec_completes hport hlen
  exact ⟨t, _, ht, hc, fun k i => by rw [getElem_unpackAll, getLsbD_unpack _ k i.isLt]⟩

end Sys2Proof.Machine
end

section
/-! SUPPORT. Status codes and the status `SHORT` (60_exceptions.md R230, R232): which results carry it, and that a step
puts it on a port only as the answer to a `DEC` of fewer than 25 bytes. -/

namespace Sys2Proof.Machine

/-! ### Status codes (R230) -/

theorem Status.code_ne_three (st : Status) : st.code ≠ 3#2 := by cases st <;> decide

/-- Settles O45: the table, and no status has the code 3. -/
theorem statusCodesAreThoseOfTheTable : Obligations.StatusCodesAreThoseOfTheTable :=
  ⟨rfl, rfl, rfl, fun r => r.status.code_ne_three⟩

/-! ### `DEC` of fewer than 25 bytes (R232) -/

theorem decodeResult_of_short {len : BitVec 8} (h : len.toNat < 25) (buf : Buf) :
    decodeResult len buf = .short := if_pos h

theorem decodeResult_status_eq_short_iff (len : BitVec 8) (buf : Buf) :
    (decodeResult len buf).status = .short ↔ len.toNat < 25 := by
  by_cases h : len.toNat < 25
  · rw [decodeResult_of_short h]
    exact iff_of_true rfl h
  · have hlong : decodeResult len buf = .okDecoded (unpackAll buf) := if_neg h
    rw [hlong]
    exact iff_of_false Status.noConfusion h

/-- Settles O30: RX accepts `DEC`, and it is only answered. -/
theorem decOfAShortBufferReturnsShort : Obligations.DecOfAShortBufferReturnsShort := by
  intro len s hport hlen
  refine ⟨_, State.ifAccepted_of_accepted (i := .dec len) (by rw [hport]; rfl) _, ?_⟩
  rw [decodeResult_of_short hlen]
  exact s.answer_completes .short

/-! ### Results other than `SHORT` -/

/-- No result with the status `SHORT` stands on the port. -/
def PortState.ShowsNoShort (q : PortState) : Prop := ∀ r, q.result = some r → r.status ≠ .short

/-- An op with slot events completes with `OK`. -/
theorem Job.answer_status (j : Job) : j.answer.status = .ok := by
  unfold Job.answer
  cases j.ret <;> rfl

theorem PortState.settled_showsNoShort (q : PortState) (j : Job) : (q.settled j).ShowsNoShort := by
  intro r hr
  obtain ⟨-, -, hanswer⟩ | ⟨-, hnone⟩ := q.settled_cases j
  · cases hanswer.symm.trans hr
    rw [Job.answer_status]
    exact Status.noConfusion
  · cases hnone.symm.trans hr

theorem State.answer_showsNoShort (s : State) {r : OpResult} (h : r.status ≠ .short) :
    ((s.answer r).port s.bus.port).ShowsNoShort := by
  intro r' hr'
  rw [State.answer_port_self] at hr'
  exact Option.some.inj hr' ▸ h

theorem State.launch_showsNoShort (s : State) (job : Job) {a : Slots × OpResult} (h : a.2.status ≠ .short) :
    ((s.launch job a).port s.bus.port).ShowsNoShort := by
  unfold State.launch
  split
  · exact State.answer_showsNoShort { s with slots := a.1 } h
  · rw [State.settle_port]
    exact PortState.settled_showsNoShort _ _

theorem State.advance_showsNoShort {s : State} {p : Port} (h : (s.port p).job.isSome = true) (b : Burst) :
    ((s.advance p b).port p).ShowsNoShort := by
  obtain ⟨j, hj⟩ := Option.isSome_iff_exists.mp h
  obtain ⟨_, hport⟩ := State.advance_port hj b
  rw [hport]
  exact PortState.settled_showsNoShort _ _

theorem State.ifAccepted_showsNoShort {s k t : State} {i : Instr} (hk : (k.port s.bus.port).ShowsNoShort)
    (h : s.ifAccepted i k = .next t) : (t.port s.bus.port).ShowsNoShort := by
  obtain ⟨-, e⟩ | ⟨-, e⟩ := s.ifAccepted_cases i k
  · cases e.symm.trans h
    exact hk
  · cases e.symm.trans h
    exact s.answer_showsNoShort Status.noConfusion

/-- No op but `DEC` leaves a `SHORT` on its port, however far it gets. -/
theorem exec_showsNoShort {i : Instr} {s t : State} (hi : ∀ len, i ≠ .dec len) (h : exec i s = .next t) :
    (t.port s.bus.port).ShowsNoShort := by
  cases i with
  | nop => exact State.ifAccepted_showsNoShort (i := .nop) (s.answer_showsNoShort Status.noConfusion) h
  | get idx => exact State.ifAccepted_showsNoShort (s.launch_showsNoShort _ Status.noConfusion) h
  | set idx val => exact State.ifAccepted_showsNoShort (s.launch_showsNoShort _ Status.noConfusion) h
  | rstn => exact State.ifAccepted_showsNoShort (s.launch_showsNoShort _ Status.noConfusion) h
  | poll keys => exact State.ifAccepted_showsNoShort (s.launch_showsNoShort _ Status.noConfusion) h
  | enc => exact State.ifAccepted_showsNoShort (s.launch_showsNoShort _ Status.noConfusion) h
  | dec len => exact absurd rfl (hi len)

/-! ### Where `SHORT` comes from (R232) -/

/-- An op returns `SHORT` when and only when it is a `DEC` of fewer than 25 bytes on RX. -/
theorem exec_status_eq_short_iff {i : Instr} {s t : State} {r : OpResult} (h : exec i s = .next t)
    (hr : (t.port s.bus.port).result = some r) :
    r.status = .short ↔ ∃ len : BitVec 8, i = .dec len ∧ s.bus.port = .rx ∧ len.toNat < 25 := by
  cases i with
  | dec len =>
    by_cases hport : s.bus.port = .rx
    · have hresult := result_of_dec hport h
      rw [← hport] at hresult
      cases hr.symm.trans hresult
      rw [decodeResult_status_eq_short_iff]
      exact ⟨fun hlen => ⟨len, rfl, hport, hlen⟩, fun ⟨_, hi, _, hlen⟩ => Instr.dec.inj hi ▸ hlen⟩
    · have hillegal := exec_of_not_accepted (i := .dec len) (beq_false_of_ne hport)
      cases hillegal.symm.trans h
      exact iff_of_false (s.answer_showsNoShort Status.noConfusion r hr)
        fun ⟨_, _, hrx, _⟩ => hport hrx
  | _ =>
    exact iff_of_false (exec_showsNoShort (fun _ => Instr.noConfusion) h r hr)
      fun ⟨_, hdec, _⟩ => Instr.noConfusion hdec

/-- So a command word returns `SHORT` only when it is the word of such a `DEC`. -/
theorem decode_of_runWord_short {w : Word} {s t : State} {r : OpResult} (h : runWord w s = .next t)
    (hr : (t.port s.bus.port).result = some r) (hshort : r.status = .short) :
    ∃ len : BitVec 8, decode w = .ok (.dec len) ∧ s.bus.port = .rx ∧ len.toNat < 25 := by
  cases hdecode : decode w with
  | ok i =>
    rw [runWord_of_decode s hdecode] at h
    obtain ⟨len, rfl, hport, hlen⟩ := (exec_status_eq_short_iff h hr).mp hshort
    exact ⟨len, rfl, hport, hlen⟩
  | error e =>
    rw [runWord_of_decode_error s hdecode] at h
    cases h
    exact absurd hshort (s.answer_showsNoShort Status.noConfusion r hr)

/-- A `SHORT` on port `p` after a turn or a step from `s` to `t` stood there before it, or answers the request of a
short `DEC` that it took from RX's agent. -/
def ShortIsOldOrOfDec (s t : State) (p : Port) (r : OpResult) : Prop :=
  ((s.port p).result = some r ∧ (t.port p).queue = (s.port p).queue) ∨
    (p = .rx ∧ ∃ (request : Request) (len : BitVec 8),
      (s.port p).queue = request :: (t.port p).queue ∧
        decode request.cw = .ok (.dec len) ∧ len.toNat < 25)

/-- A port that shows after a step what it showed before shows no new `SHORT`. -/
theorem shortIsOldOrOfDec_of_same {s t : State} {p : Port} {r : OpResult}
    (hresult : (t.port p).result = (s.port p).result) (hqueue : (t.port p).queue = (s.port p).queue)
    (hr : (t.port p).result = some r) : ShortIsOldOrOfDec s t p r :=
  .inl ⟨hresult.symm.trans hr, hqueue⟩

/-- A turn puts `SHORT` on its own port only. There it goes on with an op, which ends with `OK`, or does nothing, or
runs the word of a request. -/
theorem shortIsOldOrOfDec_of_turn {s t : State} {p q : Port} {b : Burst} {r : OpResult}
    (h : turn q b s = .next t) (hr : (t.port p).result = some r) (hshort : r.status = .short) :
    ShortIsOldOrOfDec s t p r := by
  by_cases hq : p = q
  · subst hq
    obtain ⟨hjob, rfl⟩ | ⟨-, -, rfl⟩ | ⟨request, rest, s', -, hqueue, rfl, hrun⟩ := turn_cases h
    · exact absurd hshort (State.advance_showsNoShort hjob b r hr)
    · exact shortIsOldOrOfDec_of_same rfl rfl hr
    · obtain ⟨len, hdecode, hport, hlen⟩ := decode_of_runWord_short hrun hr hshort
      have hrest : (t.port p).queue = rest :=
        (runWord_onlyPort hrun).queue.trans (congrArg PortState.queue (State.port_setPort_self _ _ _))
      exact .inr ⟨hport, request, len, hrest ▸ hqueue, hdecode, hlen⟩
  · have hport := (turn_frame h).1 p hq
    exact shortIsOldOrOfDec_of_same (congrArg _ hport) (congrArg _ hport) hr

/-- Settles O31: the ops one by one; and a step changes nothing, or is the hardware reset, which keeps every result
and every queue, or is a turn. -/
theorem shortMeansAShortDec : Obligations.ShortMeansAShortDec := by
  refine ⟨fun i s t r h hr => exec_status_eq_short_iff h hr, fun s t p r h hr hshort => ?_⟩
  change ShortIsOldOrOfDec s t p r
  obtain ⟨-, rfl⟩ | ⟨s', hmove, rfl⟩ | ⟨q, b, s', hmove, hturn⟩ := step_cases h
  · exact shortIsOldOrOfDec_of_same rfl rfl hr
  · obtain ⟨-, hport, -⟩ := State.nextMove_frame hmove
    have hreset : s'.hardReset.port p = { s.port p with job := none } :=
      (s'.hardReset_port p).trans (by rw [hport])
    exact shortIsOldOrOfDec_of_same (by rw [hreset]) (by rw [hreset]) hr
  · obtain ⟨-, hport, -⟩ := State.nextMove_frame hmove
    have hold := shortIsOldOrOfDec_of_turn hturn hr hshort
    rwa [ShortIsOldOrOfDec, hport p] at hold

end Sys2Proof.Machine
end

section
/-! SUPPORT. What each port may write (60_exceptions.md R241, R244): TX and RX no register, HOST no latch. -/

namespace Sys2Proof.Machine

/-! ### Registers a port may not write -/

/-- The registers `sl` are `old` but for what the ops of port `p` may write (R241, column "write"). -/
structure Slots.WrittenBy (p : Port) (old sl : Slots) : Prop where
  readOnly : p = .tx ∨ p = .rx → sl = old
  latch : p = .host → ∀ m, sl.getLatch m = old.getLatch m

theorem Slots.WrittenBy.refl (p : Port) (sl : Slots) : Slots.WrittenBy p sl sl :=
  ⟨fun _ => rfl, fun _ _ => rfl⟩

theorem Slots.writtenBy_map (old sl : Slots) : Slots.WrittenBy .map old sl :=
  ⟨fun h => by simp at h, fun h => by simp at h⟩

theorem Slots.writtenBy_host {old sl : Slots} (h : ∀ m, sl.getLatch m = old.getLatch m) :
    Slots.WrittenBy .host old sl :=
  ⟨fun h => by simp at h, fun _ => h⟩

/-! ### Slot events, bursts and ops -/

/-- An event that a port may have writes what the port may write. -/
theorem SlotEvent.perform_writtenBy {p : Port} {e : SlotEvent} (he : e.allowedOn p = true) {old sl : Slots}
    (h : Slots.WrittenBy p old sl) (t : Vector Chan 16) : Slots.WrittenBy p old (e.perform sl t).slots := by
  cases p with
  | map => exact Slots.writtenBy_map _ _
  | tx =>
    cases e with
    | sample => exact h
    | _ => exact absurd he Bool.false_ne_true
  | rx => exact absurd he Bool.false_ne_true
  | host =>
    refine Slots.writtenBy_host fun m => ?_
    rw [← h.latch rfl m]
    cases e with
    | writeCh k v => exact Slots.getLatch_setCh sl k v m
    | writeSw j pos => exact Slots.getLatch_setSw sl j pos m
    | writeLatch => exact absurd he Bool.false_ne_true
    | _ => rfl

/-- So does any burst of an op that has only such events before it. -/
theorem Job.run_writtenBy {p : Port} (b : Burst) (x : Slots × Job)
    (h : x.2.allEvents (SlotEvent.allowedOn p) = true) : Slots.WrittenBy p x.1 (Job.run b x).1 := by
  refine (Job.run_induction (P := fun y => y.2.allEvents (SlotEvent.allowedOn p) = true ∧
    Slots.WrittenBy p x.1 y.1) ?_ b x ⟨h, .refl p _⟩).2
  rintro n y ⟨hlane, hwritten⟩
  refine ⟨Job.allEvents_event (fun e sl t he => SlotEvent.more_allowedOn he sl t) n y hlane, ?_⟩
  obtain heq | ⟨e, he, heq⟩ := Job.event_slots n y hlane
  · rwa [heq]
  · rw [heq]
    exact SlotEvent.perform_writtenBy he hwritten _

/-- Going on with an op writes what its port may write. -/
theorem State.advance_writtenBy {s : State} (h : s.Inv) (p : Port) (b : Burst) :
    Slots.WrittenBy p s.slots (s.advance p b).slots := by
  unfold State.advance
  split
  · exact .refl p _
  · obtain ⟨-, hjobs⟩ := s.inv_iff.mp h
    obtain ⟨hlegal, -, -⟩ := hjobs p _ ‹_›
    exact Job.run_writtenBy _ (s.slots, _) hlegal.lane

/-- Every op writes what the port of the turn may write: of the ops that write at all `SET` and `RSTN` are HOST's and
write no latch, and `POLL` is MAP's. -/
theorem exec_writtenBy {i : Instr} {s t : State} (h : exec i s = .next t) :
    Slots.WrittenBy s.bus.port s.slots t.slots := by
  have hreads (hi : i = .nop ∨ (∃ idx, i = .get idx) ∨ i = .enc ∨ ∃ len, i = .dec len) :
      Slots.WrittenBy s.bus.port s.slots t.slots := by
    rw [readingOpsWriteNoRegister i s t hi h]
    exact .refl _ _
  cases hacc : i.acceptedOn s.bus.port with
  | false =>
    cases (exec_of_not_accepted hacc).symm.trans h
    exact .refl _ _
  | true =>
    cases i with
    | nop => exact hreads (.inl rfl)
    | get idx => exact hreads (.inr (.inl ⟨idx, rfl⟩))
    | set idx val =>
      rw [show s.bus.port = .host from eq_of_beq hacc]
      refine State.ifAccepted_slots (.refl .host _) (State.launch_slots ?_ ?_) h
      · exact Slots.writtenBy_host (Slots.getLatch_setCh s.slots idx val)
      · exact Job.run_writtenBy _ (s.slots, _) rfl
    | rstn =>
      rw [show s.bus.port = .host from eq_of_beq hacc]
      obtain ⟨-, -, hlatch⟩ := rstnInProgressIsPartlyRestored s t h
      exact Slots.writtenBy_host hlatch
    | poll keys =>
      rw [show s.bus.port = .map from eq_of_beq hacc]
      exact Slots.writtenBy_map _ _
    | enc => exact hreads (.inr (.inr (.inl rfl)))
    | dec len => exact hreads (.inr (.inr (.inr ⟨len, rfl⟩)))

theorem runWord_writtenBy {w : Word} {s t : State} (h : runWord w s = .next t) :
    Slots.WrittenBy s.bus.port s.slots t.slots := by
  cases hdecode : decode w with
  | ok i => exact exec_writtenBy ((runWord_of_decode s hdecode).symm.trans h)
  | error e =>
    cases (runWord_of_decode_error s hdecode).symm.trans h
    exact .refl _ _

/-! ### Turns and steps -/

theorem turn_writtenBy {s t : State} {p : Port} {b : Burst} (h : s.Inv) (ht : turn p b s = .next t) :
    Slots.WrittenBy p s.slots t.slots := by
  obtain ⟨-, rfl⟩ | ⟨-, -, rfl⟩ | ⟨request, rest, s', -, -, rfl, hrun⟩ := turn_cases ht
  · exact State.advance_writtenBy h p b
  · exact .refl p _
  · exact runWord_writtenBy hrun

/-- Settles O46: what a turn writes, and what comes next: a reset or a turn laid down, a turn freely chosen, or
nothing. -/
theorem portsWriteOnlyTheirRegisters : Obligations.PortsWriteOnlyTheirRegisters := by
  refine ⟨fun s t p b hinv ht => ?_, fun s => ?_⟩
  · obtain ⟨hreadOnly, hlatch⟩ := turn_writtenBy hinv ht
    exact ⟨hreadOnly, hlatch⟩
  · obtain ⟨m, rest, hsched, -⟩ | ⟨-, p, -, n, hmove⟩ | ⟨-, -, hmove⟩ := s.nextMove_cases
    · cases m with
      | act p b => exact .inr (.inr ⟨p, b, _, step_of_act hsched, rfl, rfl, rfl⟩)
      | reset => exact .inr (.inl ⟨rest, hsched⟩)
    · have hstep : step s = turn p ⟨[n], false⟩ { s with tick := s.tick + 2 } := by simp only [step, hmove]
      exact .inr (.inr ⟨p, _, _, hstep, rfl, rfl, rfl⟩)
    · exact .inl (by simp only [step, hmove])

end Sys2Proof.Machine
end

section
/-! SUPPORT. The hardware reset (70_reset_and_hazards.md R260 to R262), and the first `POLL` after it (R264). -/

namespace Sys2Proof.Machine

/-! ### The hardware reset -/

/-- A step performs the hardware reset the slot order lays down (log 8). -/
theorem step_of_reset {s : State} {rest : List Move} (h : s.sched = .reset :: rest) :
    step s = .next ({ s with sched := rest } : State).hardReset := by
  simp only [step, State.nextMove, h]

/-- Settles O2: the registers are those of the reset state, and an op in progress had no result to leave. -/
theorem hardwareResetAbandonsOps : Obligations.HardwareResetAbandonsOps := by
  intro s rest hinv hsched
  obtain ⟨hch, hsw, hlatch, -⟩ := resetLeavesTheTableValues
  refine ⟨_, step_of_reset hsched, hch, hsw, hlatch, fun p => ?_, fun p hjob => ?_⟩
  · rw [State.hardReset_port]
  · rw [State.hardReset_port]
    exact hinv.noEarlyResult p hjob

/-! ### A key held at reset (R264) -/

/-- From the reset registers every edge-triggered key held fires: no latch is set. -/
theorem Slots.fires_reset {keys : BitVec 22} {key : EdgeKey} (h : key.level keys = true) :
    Slots.reset.fires keys key = true :=
  (Slots.fires_iff _ keys key).mpr ⟨h, Slots.getLatch_reset _⟩

/-- `reset_to_neutral` is redundant on the reset registers. -/
theorem Slots.resetToNeutral_reset : Slots.reset.resetToNeutral = Slots.reset := rfl

/-- So are the 16 actions with no key held: every latch they clear is clear. -/
theorem Slots.mapActions_zero_reset : Slots.reset.mapActions 0#22 = Slots.reset := by
  have hclear (j : Fin 11) : Slots.reset.setLatch (EdgeKey.tog j).latch false = Slots.reset := by
    refine Slots.eq_of_reads (fun _ => rfl) (fun _ => rfl) fun m => ?_
    rw [Slots.getLatch_setLatch, Slots.getLatch_reset, ite_self]
  rw [Slots.mapActions_zero]
  exact List.foldlRecOn _ _ (motive := (· = Slots.reset)) rfl fun _ hsl j _ => hsl ▸ hclear j

/-- The reset key alone on the first `POLL` after reset: in either order what it and the other actions do is
redundant, but for its latch. -/
theorem Slots.pollTick_reset_rst (order : ResetOrder) :
    Slots.reset.pollTick order (BitVec.twoPow 22 21) = Slots.reset.setLatch EdgeKey.rst.latch true := by
  have hlevel : EdgeKey.rst.level (BitVec.twoPow 22 21) = true := rfl
  have hothers : ∀ i, i < 21 → (BitVec.twoPow 22 21).getLsbD i = (0#22).getLsbD i := by decide
  have hactions : Slots.reset.mapActions (BitVec.twoPow 22 21) = Slots.reset :=
    (Slots.mapActions_congr hothers _).trans Slots.mapActions_zero_reset
  cases order with
  | last =>
    rw [Slots.pollTick_last_of_fires (Slots.fires_reset hlevel), hactions, Slots.resetToNeutral_reset, hlevel]
  | first =>
    rw [Slots.pollTick_first_of_fires (Slots.fires_reset hlevel), Slots.resetToNeutral_reset, hactions, hlevel]

/-- Settles O24: with every latch clear a key held is a press edge. -/
theorem keyHeldAtResetFires : Obligations.KeyHeldAtResetFires := by
  refine ⟨fun order keys j hlevel hup => ?_, fun keys hlevel => Slots.fires_reset (key := .rst) hlevel,
    Slots.pollTick_reset_rst⟩
  obtain ⟨hsw, hch⟩ := Slots.mapActions_of_fires (Slots.fires_reset (key := .tog j) hlevel)
  rw [Slots.pollTick_of_not_fires (Slots.not_fires_of_up (key := .rst) _ hup), Slots.getSw_setLatch,
    Slots.getCh_setLatch, hsw, hch, Slots.getSw_reset]
  exact ⟨rfl, rfl⟩

end Sys2Proof.Machine
end

section
/-! SUPPORT. Progress (70_reset_and_hazards.md R276): every step has a next state, and a free step takes a request or
brings an op closer to its end, so that the machine runs until nothing is left to do. -/

namespace Sys2Proof.Machine

/-! ### Every step has a next state (R236, R276) -/

theorem runWord_next (w : Word) (s : State) : ∃ t, runWord w s = .next t := by
  cases hdecode : decode w with
  | ok i =>
    rw [runWord_of_decode s hdecode]
    exact exec_next i s
  | error e => exact ⟨_, runWord_of_decode_error s hdecode⟩

theorem turn_next (p : Port) (b : Burst) (s : State) : ∃ t, turn p b s = .next t := by
  unfold turn
  split
  · exact ⟨_, rfl⟩
  · split
    · exact ⟨_, rfl⟩
    · exact runWord_next _ _

/-- Settles O47: a step does nothing, or is the hardware reset, or is a turn of a port, which at most runs a word. -/
theorem everyStepAnswersANextState : Obligations.EveryStepAnswersANextState := by
  intro s
  unfold step
  split
  · exact ⟨_, rfl⟩
  · exact ⟨_, rfl⟩
  · exact turn_next _ _ _

/-! ### A sum over the ports -/

/-- The sum of a number that each port has. -/
def State.total (f : PortState → Nat) (s : State) : Nat :=
  ([Port.map, .tx, .rx, .host].map fun p => f (s.port p)).sum

/-- What changes one port only changes the sum by what it changes there. -/
theorem State.total_add {s t : State} {p : Port} (f : PortState → Nat) (h : ∀ q, q ≠ p → t.port q = s.port q) :
    t.total f + f (s.port p) = s.total f + f (t.port p) := by
  have hq : ∀ q, q ≠ p → f (t.port q) = f (s.port q) := fun q hne => congrArg f (h q hne)
  simp only [State.total, List.map_cons, List.map_nil, List.sum_cons, List.sum_nil]
  cases p with
  | map => rw [hq .tx (by decide), hq .rx (by decide), hq .host (by decide)]; omega
  | tx => rw [hq .map (by decide), hq .rx (by decide), hq .host (by decide)]; omega
  | rx => rw [hq .map (by decide), hq .tx (by decide), hq .host (by decide)]; omega
  | host => rw [hq .map (by decide), hq .tx (by decide), hq .rx (by decide)]; omega

/-- The requests that all agents will still issue. -/
def State.queued (s : State) : Nat := s.total fun q => q.queue.length

/-- The part of a port in `State.pendingWeight`. -/
def PortState.weight (q : PortState) : Nat :=
  match q.job with
  | none => 0
  | some j => j.weight + 1

theorem State.pendingWeight_eq_total (s : State) : s.pendingWeight = s.total PortState.weight := rfl

/-! ### A burst brings an op closer to its end -/

/-- No slot event takes an op away from its end. -/
theorem Job.event_weight_le (n : Nat) (x : Slots × Job) : (Job.event n x).2.weight ≤ x.2.weight := by
  by_cases h : x.2.stages = []
  · rw [Job.event_done n x h]
  · exact (Job.event_weight_lt n x h).le

theorem Job.run_weight_le (b : Burst) (x : Slots × Job) : (Job.run b x).2.weight ≤ x.2.weight :=
  Job.run_induction (P := fun y => y.2.weight ≤ x.2.weight) (fun n y h => (Job.event_weight_le n y).trans h) b x
    le_rfl

/-- A burst that picks an event ends the op or brings it closer to its end. -/
theorem Job.run_pick_weight_lt (n : Nat) (picks : List Nat) (w : Bool) (x : Slots × Job) :
    (Job.run ⟨n :: picks, w⟩ x).2.stages = [] ∨ (Job.run ⟨n :: picks, w⟩ x).2.weight < x.2.weight := by
  have hfirst : Job.run ⟨n :: picks, w⟩ x = Job.run ⟨picks, w⟩ (Job.event n x) := rfl
  by_cases h : x.2.stages = []
  · exact .inl (by rwa [Job.run_done _ x h])
  · rw [hfirst]
    exact .inr ((Job.run_weight_le _ _).trans_lt (Job.event_weight_lt n x h))

/-- So a port that goes on with its op by such a burst has less before it. -/
theorem PortState.weight_settled_lt {q : PortState} {j j' : Job} (hj : q.job = some j)
    (h : j'.stages = [] ∨ j'.weight < j.weight) : (q.settled j').weight < q.weight := by
  rw [show q.weight = j.weight + 1 by simp only [PortState.weight, hj]]
  obtain hdone | hlt := h
  · simp [PortState.weight, PortState.settled, hdone]
  · obtain ⟨-, hjob, -⟩ | ⟨hjob, -⟩ := q.settled_cases j'
    · simp [PortState.weight, hjob]
    · simpa [PortState.weight, hjob] using hlt

/-! ### Progress of a free turn -/

/-- The state `t` is closer to the end of all that is requested in `s`: a request was taken, or else the ops in progress
have less before them. -/
def State.Closer (s t : State) : Prop :=
  t.queued < s.queued ∨ (t.queued = s.queued ∧ t.pendingWeight < s.pendingWeight)

/-- Going on with an op for a burst that picks an event, whole or not as the atomicity of ops has it. -/
theorem State.closer_advance {s : State} {p : Port} {j : Job} (hj : (s.port p).job = some j) (n : Nat) :
    s.Closer (s.advance p ⟨[n], false⟩) := by
  obtain ⟨w, hport⟩ : ∃ w, (s.advance p ⟨[n], false⟩).port p =
      (s.port p).settled (Job.run ⟨[n], w⟩ (s.slots, j)).2 := by
    refine ⟨s.params.atomicOps, ?_⟩
    simp only [State.advance, hj, State.settle_port]
    cases s.params.atomicOps <;> rfl
  have hframe := s.advance_onlyPort p ⟨[n], false⟩
  have hqueued := State.total_add (fun q => q.queue.length) hframe.others
  have hweight := State.total_add PortState.weight hframe.others
  have hlt := PortState.weight_settled_lt hj (Job.run_pick_weight_lt n [] w (s.slots, j))
  rw [← hport] at hlt
  simp only [hframe.queue] at hqueued
  refine .inr ⟨Nat.add_right_cancel hqueued, ?_⟩
  simp only [State.pendingWeight_eq_total]
  omega

/-- A turn that takes a request. -/
theorem State.closer_of_request {s t : State} {p : Port} {b : Burst} (hjob : (s.port p).job = none)
    (hqueue : (s.port p).queue ≠ []) (h : turn p b s = .next t) : s.Closer t := by
  obtain ⟨hsome, -⟩ | ⟨-, hnil, -⟩ | ⟨request, rest, s', -, hcons, rfl, hrun⟩ := turn_cases h
  · simp [hjob] at hsome
  · exact absurd hnil hqueue
  · have hrest : (t.port p).queue = rest :=
      (runWord_onlyPort hrun).queue.trans (congrArg PortState.queue (State.port_setPort_self _ _ _))
    obtain ⟨hothers, -, -, -⟩ := turn_frame h
    have hqueued := State.total_add (fun q => q.queue.length) hothers
    simp only [hrest, hcons, List.length_cons] at hqueued
    refine .inl ?_
    simp only [State.queued]
    omega

/-- A free turn of a port with something to do: an op in progress goes on, otherwise a request is taken. -/
theorem State.closer_of_turn {s t : State} {p : Port} {n : Nat} (hp : p ∈ s.pendingPorts)
    (h : turn p ⟨[n], false⟩ s = .next t) : s.Closer t := by
  have hpending : (s.port p).pending = true := (List.mem_filter.mp hp).2
  cases hj : (s.port p).job with
  | some j =>
    obtain ⟨-, rfl⟩ | ⟨hnone, -⟩ | ⟨_, _, _, hnone, -⟩ := turn_cases h
    · exact State.closer_advance hj n
    · cases hnone.symm.trans hj
    · cases hnone.symm.trans hj
  | none => exact State.closer_of_request hj (by simpa [PortState.pending, hj] using hpending) h

/-- Settles O59: a free step is such a turn, and the counter of free choices counts for nothing in it. -/
theorem everyFreeStepMakesProgress : Obligations.EveryFreeStepMakesProgress := by
  intro s t hsched hbusy hstep
  obtain ⟨p, hp, n, hturn⟩ := (freeTurnGoesToAPendingPort s hsched).2 hbusy
  exact State.closer_of_turn (s := { s with tick := s.tick + 2 }) hp (hturn.symm.trans hstep)

/-! ### The machine runs until nothing is left to do -/

/-- A step leaves the slot order empty when it is. -/
theorem step_sched_nil {s t : State} (hsched : s.sched = []) (h : step s = .next t) : t.sched = [] := by
  cases hbusy : s.pendingPorts with
  | nil =>
    cases ((freeTurnGoesToAPendingPort s hsched).1 hbusy).symm.trans h
    exact hsched
  | cons p ps =>
    obtain ⟨_, -, _, hturn⟩ := (freeTurnGoesToAPendingPort s hsched).2 (by simp [hbusy])
    obtain ⟨-, hsame, -, -⟩ := turn_frame (hturn.symm.trans h)
    exact hsame.trans hsched

/-- A run that begins with a step. -/
theorem run_succ {s u : State} (n : Nat) (h : step s = .next u) :
    Host.Core.run Sys2Proof.core (n + 1) s = Host.Core.run Sys2Proof.core n u := by
  have h : Sys2Proof.core.step s = .next u := h
  simp only [Host.Core.run, h]

/-- From an empty slot order a run reaches a state with nothing left to do: each of its steps is closer to the end. -/
theorem run_reaches_idle (s : State) (hsched : s.sched = []) : ∃ (n : Nat) (t : State),
    Host.Core.run Sys2Proof.core n s = .next t ∧ t.pendingPorts = [] := by
  by_cases hidle : s.pendingPorts = []
  · exact ⟨0, s, rfl, hidle⟩
  · obtain ⟨u, hstep⟩ := everyStepAnswersANextState s
    have hcloser : s.Closer u := everyFreeStepMakesProgress s u hsched hidle hstep
    obtain ⟨n, t, hrun, hdone⟩ := run_reaches_idle u (step_sched_nil hsched hstep)
    exact ⟨n + 1, t, (run_succ n hstep).trans hrun, hdone⟩
termination_by (s.queued, s.pendingWeight)
decreasing_by exact Prod.lex_def.mpr hcloser

/-- Settles O60: requests and pending slot events decrease from free step to free step. -/
theorem everyRequestedOpCompletes : Obligations.EveryRequestedOpCompletes := run_reaches_idle

end Sys2Proof.Machine
end
